-- ==== Sys2Proof/Word.lean ====
section
/-! DEFINITION. The word types of the CHIP-8 core: bytes, 16-bit words, 12-bit addresses, nibbles (spec R11, R12, R70),
and the index of one of the sixteen registers, stack slots or keys (R20, R27, R39). -/

namespace Sys2Proof

/-- A byte: the contents of a V register, a timer or a memory cell. -/
abbrev Byte := BitVec 8

/-- A 16-bit word: an instruction word, I, PC or a stack slot. -/
abbrev Word := BitVec 16

/-- A 12-bit address operand `nnn`. -/
abbrev Addr := BitVec 12

/-- A 4-bit field of an instruction word. -/
abbrev Nibble := BitVec 4

/-- The index of a V register; stack slots and key codes use the same sixteen numbers. -/
abbrev Reg := Fin 16

end Sys2Proof
end

