-- ==== Sys2Proof/Syntax.lean ====
section
/-! DEFINITION. The instructions: one constructor per row of spec/opcode_table.json, in the table's order (R76), with the
operands of its format (R72, R73). -/

namespace Sys2Proof

inductive Instr where
  /-- `0nnn` SYS nnn (R93) -/
  | sys (nnn : Addr)
  /-- `00E0` CLS (R150) -/
  | cls
  /-- `00EE` RET (R97) -/
  | ret
  /-- `1nnn` JP nnn (R94) -/
  | jp (nnn : Addr)
  /-- `2nnn` CALL nnn (R96) -/
  | call (nnn : Addr)
  /-- `3xkk` SE Vx,kk (R98) -/
  | seImm (x : Reg) (kk : Byte)
  /-- `4xkk` SNE Vx,kk (R99) -/
  | sneImm (x : Reg) (kk : Byte)
  /-- `5xy0` SE Vx,Vy (R100) -/
  | seReg (x y : Reg)
  /-- `6xkk` LD Vx,kk (R112) -/
  | ldImm (x : Reg) (kk : Byte)
  /-- `7xkk` ADD Vx,kk (R113) -/
  | addImm (x : Reg) (kk : Byte)
  /-- `8xy0` LD Vx,Vy (R114) -/
  | ldReg (x y : Reg)
  /-- `8xy1` OR Vx,Vy (R115) -/
  | orReg (x y : Reg)
  /-- `8xy2` AND Vx,Vy (R116) -/
  | andReg (x y : Reg)
  /-- `8xy3` XOR Vx,Vy (R117) -/
  | xorReg (x y : Reg)
  /-- `8xy4` ADD Vx,Vy (R118) -/
  | addReg (x y : Reg)
  /-- `8xy5` SUB Vx,Vy (R119) -/
  | sub (x y : Reg)
  /-- `8xy6` SHR Vx (R120); y is a field of the word that the instruction ignores (R79) -/
  | shr (x y : Reg)
  /-- `8xy7` SUBN Vx,Vy (R121) -/
  | subn (x y : Reg)
  /-- `8xyE` SHL Vx (R122); y is a field of the word that the instruction ignores (R79) -/
  | shl (x y : Reg)
  /-- `9xy0` SNE Vx,Vy (R101) -/
  | sneReg (x y : Reg)
  /-- `Annn` LD I,nnn (R130) -/
  | ldI (nnn : Addr)
  /-- `Bnnn` JP V0,nnn (R95) -/
  | jpV0 (nnn : Addr)
  /-- `Cxkk` RND Vx,kk (R123) -/
  | rnd (x : Reg) (kk : Byte)
  /-- `Dxyn` DRW Vx,Vy,n (R151) -/
  | drw (x y : Reg) (n : Nibble)
  /-- `Ex9E` SKP Vx (R139) -/
  | skp (x : Reg)
  /-- `ExA1` SKNP Vx (R140) -/
  | sknp (x : Reg)
  /-- `Fx07` LD Vx,DT (R136) -/
  | ldVDt (x : Reg)
  /-- `Fx0A` LD Vx,K (R141) -/
  | ldVK (x : Reg)
  /-- `Fx15` LD DT,Vx (R137) -/
  | ldDtV (x : Reg)
  /-- `Fx18` LD ST,Vx (R138) -/
  | ldStV (x : Reg)
  /-- `Fx1E` ADD I,Vx (R131) -/
  | addI (x : Reg)
  /-- `Fx29` LD F,Vx (R132) -/
  | ldF (x : Reg)
  /-- `Fx33` LD B,Vx (R133) -/
  | ldB (x : Reg)
  /-- `Fx55` LD [I],Vx (R134) -/
  | ldMemV (x : Reg)
  /-- `Fx65` LD Vx,[I] (R135) -/
  | ldVMem (x : Reg)
  deriving DecidableEq, Repr

end Sys2Proof
end

