-- ==== Sys2Proof/Decode.lean ====
section
/-! DEFINITION. The decoder (R70-R78), total on words and on byte lists, and the encoder. An opcode is a pattern of four
nibbles, each a literal or a wildcard (R71); the patterns with fewer wildcards are tried first (R75). -/

namespace Sys2Proof

/-- Why bytes are no instruction. -/
inductive DecodeError where
  /-- no pattern matches the word (R78); a Step that fetches it raises DecodeFailure (R161) -/
  | noMatch (w : Word)
  /-- fewer than two bytes are left; no fetch of the machine meets it (a fetch reads two bytes or faults, R90) -/
  | truncated
  deriving DecidableEq, Repr

/-! ## Fields (R12) -/

/-- Nibble k of a word, nibble 0 the least significant. -/
def nibble (w : Word) (k : Nat) : Nibble := w.extractLsb' (4 * k) 4

/-- `x = w[11:8]` -/
def fieldX (w : Word) : Reg := (nibble w 2).toFin

/-- `y = w[7:4]` -/
def fieldY (w : Word) : Reg := (nibble w 1).toFin

/-- `n = w[3:0]` -/
def fieldN (w : Word) : Nibble := nibble w 0

/-- `kk = w[7:0]` -/
def fieldKK (w : Word) : Byte := w.extractLsb' 0 8

/-- `nnn = w[11:0]` -/
def fieldNNN (w : Word) : Addr := w.extractLsb' 0 12

/-! ## Patterns -/

/-- Four nibbles, most significant first; `none` is a wildcard (R71). -/
structure Pattern where
  n3 : Option Nibble
  n2 : Option Nibble
  n1 : Option Nibble
  n0 : Option Nibble
  deriving DecidableEq, Repr

/-- A literal nibble must agree; a wildcard agrees with every nibble. -/
def nibbleAgrees : Option Nibble → Nibble → Bool
  | some lit, d => lit == d
  | none, _ => true

/-- "a pattern matches if and only if every literal nibble position agrees" (R75). -/
def Pattern.accepts (p : Pattern) (w : Word) : Bool :=
  nibbleAgrees p.n3 (nibble w 3) && nibbleAgrees p.n2 (nibble w 2) &&
    nibbleAgrees p.n1 (nibble w 1) && nibbleAgrees p.n0 (nibble w 0)

/-- A row of the opcode map: a pattern and the instruction read from a word of it. -/
structure OpcodeRow where
  pattern : Pattern
  build : Word → Instr

/-- A row whose four nibbles are all literal. -/
def rowNone (a b c d : Nibble) (i : Instr) : OpcodeRow := ⟨⟨some a, some b, some c, some d⟩, fun _ => i⟩

/-- Format `F_X`: `oooo xxxx oooo oooo`. -/
def rowX (a c d : Nibble) (f : Reg → Instr) : OpcodeRow := ⟨⟨some a, none, some c, some d⟩, fun w => f (fieldX w)⟩

/-- Format `F_XY`: `oooo xxxx yyyy oooo`. -/
def rowXY (a d : Nibble) (f : Reg → Reg → Instr) : OpcodeRow :=
  ⟨⟨some a, none, none, some d⟩, fun w => f (fieldX w) (fieldY w)⟩

/-- Format `F_XKK`: `oooo xxxx kkkk kkkk`. -/
def rowXKK (a : Nibble) (f : Reg → Byte → Instr) : OpcodeRow :=
  ⟨⟨some a, none, none, none⟩, fun w => f (fieldX w) (fieldKK w)⟩

/-- Format `F_XYN`: `oooo xxxx yyyy nnnn`. -/
def rowXYN (a : Nibble) (f : Reg → Reg → Nibble → Instr) : OpcodeRow :=
  ⟨⟨some a, none, none, none⟩, fun w => f (fieldX w) (fieldY w) (fieldN w)⟩

/-- Format `F_NNN`: `oooo nnnn nnnn nnnn`. -/
def rowNNN (a : Nibble) (f : Addr → Instr) : OpcodeRow := ⟨⟨some a, none, none, none⟩, fun w => f (fieldNNN w)⟩

/-- The opcode map of R76, the rows with fewer wildcards first (R75). The 29 rows that the source does not confirm are
general knowledge in the spec itself (D1, G1; log 14). -/
def opcodeRows : List OpcodeRow :=
  [ rowNone 0x0 0x0 0xE 0x0 .cls, rowNone 0x0 0x0 0xE 0xE .ret ] ++
  [ rowX 0xE 0x9 0xE .skp, rowX 0xE 0xA 0x1 .sknp, rowX 0xF 0x0 0x7 .ldVDt, rowX 0xF 0x0 0xA .ldVK,
    rowX 0xF 0x1 0x5 .ldDtV, rowX 0xF 0x1 0x8 .ldStV, rowX 0xF 0x1 0xE .addI, rowX 0xF 0x2 0x9 .ldF,
    rowX 0xF 0x3 0x3 .ldB, rowX 0xF 0x5 0x5 .ldMemV, rowX 0xF 0x6 0x5 .ldVMem ] ++
  [ rowXY 0x5 0x0 .seReg, rowXY 0x8 0x0 .ldReg, rowXY 0x8 0x1 .orReg, rowXY 0x8 0x2 .andReg, rowXY 0x8 0x3 .xorReg,
    rowXY 0x8 0x4 .addReg, rowXY 0x8 0x5 .sub, rowXY 0x8 0x6 .shr, rowXY 0x8 0x7 .subn, rowXY 0x8 0xE .shl,
    rowXY 0x9 0x0 .sneReg ] ++
  [ rowNNN 0x0 .sys, rowNNN 0x1 .jp, rowNNN 0x2 .call, rowXKK 0x3 .seImm, rowXKK 0x4 .sneImm, rowXKK 0x6 .ldImm,
    rowXKK 0x7 .addImm, rowNNN 0xA .ldI, rowNNN 0xB .jpV0, rowXKK 0xC .rnd, rowXYN 0xD .drw ]

/-- The decoder: "a pure function of the 16-bit word" (R74), the first row that matches, or no match (R75, R78). -/
def decode (w : Word) : Except DecodeError Instr :=
  match opcodeRows.find? (fun r => r.pattern.accepts w) with
  | some r => .ok (r.build w)
  | none => .error (.noMatch w)

/-- The word of two bytes, the one at the lower address being the high byte (R53). -/
def wordOfBytes (hi lo : Byte) : Word := hi ++ lo

/-- The high byte of a word, which memory holds first (R53). -/
def highByte (w : Word) : Byte := w.extractLsb' 8 8

/-- The low byte of a word. -/
def lowByte (w : Word) : Byte := w.extractLsb' 0 8

/-- Decode the instruction at the front of a list of bytes and give the bytes after it. -/
def decodeBytes : List Byte → Except DecodeError (Instr × List Byte)
  | hi :: lo :: rest => (decode (wordOfBytes hi lo)).map (fun i => (i, rest))
  | _ => .error .truncated

/-- The instruction of a row's word, numbered as spec/opcode_table.json numbers it (bit 0 the least significant bit of the
one 16-bit word, bits above `nbits` zero), laid out as two bytes, high byte first; none where the decoder refuses, or where
the number does not fit in `nbits` or in the one word every instruction has (log 17). -/
def decodeTableWord (nbits w : Nat) : Option Instr :=
  if nbits ≤ 16 ∧ w < 2 ^ nbits then
    match decodeBytes [highByte (BitVec.ofNat 16 w), lowByte (BitVec.ofNat 16 w)] with
    | .ok (i, _) => some i
    | .error _ => none
  else none

/-! ## The encoder -/

/-- A register index as a field of a word. -/
def regField (r : Reg) : Nibble := BitVec.ofFin r

/-- `oooo nnnn nnnn nnnn` -/
def encodeNNN (a : Nibble) (nnn : Addr) : Word := a ++ nnn

/-- `oooo xxxx kkkk kkkk` -/
def encodeXKK (a : Nibble) (x : Reg) (kk : Byte) : Word := a ++ regField x ++ kk

/-- `oooo xxxx yyyy nnnn`, the format of F_XY too, with a literal last nibble. -/
def encodeXYN (a : Nibble) (x y : Reg) (n : Nibble) : Word := a ++ regField x ++ regField y ++ n

/-- The word of an instruction, by the formats of R72 and the patterns of R76. -/
def encode : Instr → Word
  | .sys nnn => encodeNNN 0x0 nnn
  | .cls => 0x00E0
  | .ret => 0x00EE
  | .jp nnn => encodeNNN 0x1 nnn
  | .call nnn => encodeNNN 0x2 nnn
  | .seImm x kk => encodeXKK 0x3 x kk
  | .sneImm x kk => encodeXKK 0x4 x kk
  | .seReg x y => encodeXYN 0x5 x y 0x0
  | .ldImm x kk => encodeXKK 0x6 x kk
  | .addImm x kk => encodeXKK 0x7 x kk
  | .ldReg x y => encodeXYN 0x8 x y 0x0
  | .orReg x y => encodeXYN 0x8 x y 0x1
  | .andReg x y => encodeXYN 0x8 x y 0x2
  | .xorReg x y => encodeXYN 0x8 x y 0x3
  | .addReg x y => encodeXYN 0x8 x y 0x4
  | .sub x y => encodeXYN 0x8 x y 0x5
  | .shr x y => encodeXYN 0x8 x y 0x6
  | .subn x y => encodeXYN 0x8 x y 0x7
  | .shl x y => encodeXYN 0x8 x y 0xE
  | .sneReg x y => encodeXYN 0x9 x y 0x0
  | .ldI nnn => encodeNNN 0xA nnn
  | .jpV0 nnn => encodeNNN 0xB nnn
  | .rnd x kk => encodeXKK 0xC x kk
  | .drw x y n => encodeXYN 0xD x y n
  | .skp x => encodeXKK 0xE x 0x9E
  | .sknp x => encodeXKK 0xE x 0xA1
  | .ldVDt x => encodeXKK 0xF x 0x07
  | .ldVK x => encodeXKK 0xF x 0x0A
  | .ldDtV x => encodeXKK 0xF x 0x15
  | .ldStV x => encodeXKK 0xF x 0x18
  | .addI x => encodeXKK 0xF x 0x1E
  | .ldF x => encodeXKK 0xF x 0x29
  | .ldB x => encodeXKK 0xF x 0x33
  | .ldMemV x => encodeXKK 0xF x 0x55
  | .ldVMem x => encodeXKK 0xF x 0x65

end Sys2Proof
end

