-- ==== Sys2Proof/Config.lean ====
section
/-! DEFINITION. What is fixed for one session of the core: the parameters the spec names (R9, R10, R36; D2, D16, D19, D20)
with their defaults, and the free value of the random-byte input (R123, D24). -/

namespace Sys2Proof

/-- A display dimension: `DISPLAY_W >= 1` and `DISPLAY_H >= 1` (R10). -/
abbrev DisplaySize := { n : Nat // 1 ≤ n }

/-- The parameters of one session. `State` carries them, so that a statement over all states is a statement over every
choice of them (log 3); nothing in the machine writes them. -/
structure Config where
  /-- `FONT`, the 80 glyph bytes of 0x050-0x09F (R36). -/
  font : Vector Byte 80
  /-- `DISPLAY_W`, the columns of the frame buffer, at least one (R10). -/
  displayW : DisplaySize
  /-- `DISPLAY_H`, the rows of the frame buffer, at least one (R10). -/
  displayH : DisplaySize
  /-- `SYS_FAULTS`: SYS raises DecodeFailure instead of doing nothing (D2; default false). -/
  sysFaults : Bool
  /-- `FONT_DIGIT_MASK`: LD F,Vx uses only the low four bits of V[x] (D16; default false). -/
  fontDigitMask : Bool
  deriving DecidableEq, Repr

/-- The default `FONT` of R36. PRESUMED: the spec takes it from general knowledge (D19, log 4); unsafe for a claim
about glyph pixels. -/
def Config.defaultFont : Vector Byte 80 :=
  #v[0xF0, 0x90, 0x90, 0x90, 0xF0,  0x20, 0x60, 0x20, 0x20, 0x70,
     0xF0, 0x10, 0xF0, 0x80, 0xF0,  0xF0, 0x10, 0xF0, 0x10, 0xF0,
     0x90, 0x90, 0xF0, 0x10, 0x10,  0xF0, 0x80, 0xF0, 0x10, 0xF0,
     0xF0, 0x80, 0xF0, 0x90, 0xF0,  0xF0, 0x10, 0x20, 0x40, 0x40,
     0xF0, 0x90, 0xF0, 0x90, 0xF0,  0xF0, 0x90, 0xF0, 0x10, 0xF0,
     0xF0, 0x90, 0xF0, 0x90, 0x90,  0xE0, 0x90, 0xE0, 0x90, 0xE0,
     0xF0, 0x80, 0x80, 0x80, 0xF0,  0xE0, 0x90, 0x90, 0x90, 0xE0,
     0xF0, 0x80, 0xF0, 0x80, 0xF0,  0xF0, 0x80, 0xF0, 0x80, 0x80]

/-- The defaults of R9: the table above, 64 x 32, and the two optional parameters off. -/
def Config.default : Config :=
  { font := Config.defaultFont
    displayW := ⟨64, by decide⟩
    displayH := ⟨32, by decide⟩
    sysFaults := false
    fontDigitMask := false }

/-- The byte the connected random source gives to the n-th draw when the host has supplied none: a free value, any byte
at all (R123, D24, U7; log 6). -/
opaque Config.randomByte : Nat → Byte

end Sys2Proof
end

