-- ==== Sys2Proof/Machine/State.lean ====
section
/-! DEFINITION. The state of the core as plain data: everything 10_state.md names, the inputs it reads and the session's
parameters; its value after reset; and the reasons a step can stop. -/

namespace Sys2Proof.Machine

/-- The execution-mode latch MODE (R40). The register that AwaitingKey waits for is `State.waitReg` (WAIT_REG). -/
inductive Mode where
  | running
  | awaitingKey
  | faulted
  deriving DecidableEq, Repr

/-- The causes a FAULT record can hold (R160). -/
inductive Cause where
  | none
  | decodeFailure
  | stackOverflow
  | stackUnderflow
  | memoryOutOfBounds
  | invalidKey
  | romTooLarge
  deriving DecidableEq, Repr

/-- The FAULT record (R41). -/
structure FaultRecord where
  cause : Cause
  pc : Word
  word : Word
  info : Word
  deriving DecidableEq, Repr

/-- What the spec gives the machine (10_state.md), its inputs, and the parameters of the session. -/
structure State where
  /-- V[0]..V[15]; VF is V[15] itself (R20, R21). -/
  v : Vector Byte 16
  /-- The address register I, never masked to 12 bits (R24). -/
  i : Word
  /-- The program counter (R25). -/
  pc : Word
  /-- SP, the number of occupied stack slots, 0..16 in every reachable state (R26). -/
  sp : BitVec 5
  /-- STACK[0..15] (R27). -/
  stack : Vector Word 16
  /-- DT, the delay timer (R32). -/
  dt : Byte
  /-- ST, the sound timer (R33). -/
  st : Byte
  /-- MEM: the bytes that differ from their reset contents, addresses rising (R34, R37; log 8). -/
  mem : List Host.Cell
  /-- FB: DISPLAY_H rows of DISPLAY_W pixels, row 0 the topmost, column 0 the leftmost; true is lit (R38). -/
  fb : List (List Bool)
  /-- MODE (R40). -/
  mode : Mode
  /-- WAIT_REG, meaningful only in AwaitingKey (R40; log 9). -/
  waitReg : Reg
  /-- FAULT (R41). -/
  fault : FaultRecord
  /-- The input KEY[0..15], true while the key is pressed; written by the host only (R8, R39). -/
  keys : Vector Bool 16
  /-- The model's own: random bytes the host has supplied and RND has not taken (R123, R181; log 6). -/
  randomInput : List Byte
  /-- The model's own: how many random bytes RND has taken (R123; log 6). -/
  randomTaken : Nat
  /-- The parameters of the session, which nothing writes (R9, R10; log 3). -/
  config : Config
  deriving DecidableEq, Repr

/-- Why the model has no next state. The spec's own faults are not here: they are next states in mode Faulted (R164;
log 1). -/
inductive Fault where
  /-- Raised by CALL and RET when SP names no stack slot, that is SP > 16. Safe: no run reaches such a state (R26; log 2). -/
  | stackSlotAbsent
  deriving DecidableEq, Repr

/-- Why the model gives an instruction no meaning. -/
inductive Refusal where
  /-- For an arm of `exec` that has no meaning yet; no arm is left in that form. Safe. -/
  | notModelled (mnemonic : String)
  deriving DecidableEq, Repr

/-- The FAULT record with every field 0 (R41). -/
def FaultRecord.clear : FaultRecord := { cause := .none, pc := 0, word := 0, info := 0 }

/-- A frame buffer of the given size with every pixel unlit (R38). -/
def blankDisplay (w h : Nat) : List (List Bool) := List.replicate h (List.replicate w false)

/-- The state right after reset for given parameters: the table of R43, with no key pressed (log 7) and no random byte
supplied (log 6). -/
def State.resetFor (c : Config) : State :=
  { v := Vector.replicate 16 0
    i := 0
    pc := 0x200
    sp := 0
    stack := Vector.replicate 16 0
    dt := 0
    st := 0
    mem := []
    fb := blankDisplay c.displayW c.displayH
    mode := .running
    waitReg := 0
    fault := FaultRecord.clear
    keys := Vector.replicate 16 false
    randomInput := []
    randomTaken := 0
    config := c }

/-- The machine right after reset, with the default parameters (R9, R43, R193). -/
def State.reset : State := State.resetFor Config.default

end Sys2Proof.Machine
end

