-- ==== Sys2Proof/Machine/Ops.lean ====
section
/-! DEFINITION. The named operations over the state: registers, memory, stack, frame buffer, keys, the random-byte input,
and taking a fault (R164). Every read or write of the machine goes through one of these. -/

namespace Sys2Proof.Machine

/-! ## Registers -/

/-- Read V[r] (R20). -/
def State.reg (s : State) (r : Reg) : Byte := s.v[r]

/-- Write V[r]; VF is V[15] (R20, R21). -/
def State.setReg (s : State) (r : Reg) (b : Byte) : State := { s with v := s.v.set r b }

/-- Advance PC past the instruction, before the instruction's own effect (R90, R91). -/
def State.advance (s : State) : State := { s with pc := s.pc + 2 }

/-- Write V[k], V[k+1], ... from a list, up to V[15] (R135). -/
def State.loadRegs (s : State) : Nat → List Byte → State
  | _, [] => s
  | k, b :: bs => if h : k < 16 then (s.setReg ⟨k, h⟩ b).loadRegs (k + 1) bs else s

/-- V[0]..V[x] as a list (R134). -/
def State.firstRegs (s : State) (x : Reg) : List Byte := s.v.toList.take (x.val + 1)

/-! ## Memory -/

/-- The reset contents of an address: FONT at 0x050-0x09F, 0 elsewhere (R37). An address the memory list does not name
reads as this (log 8). -/
def initialByte (c : Config) (a : Nat) : Byte := if h : 0x50 ≤ a ∧ a - 0x50 < 80 then c.font[a - 0x50] else 0

/-- The byte a memory list names for an address. -/
def Memory.find? : List Host.Cell → Nat → Option Byte
  | [], _ => none
  | (a', b) :: m, a => if a' = a then some b else Memory.find? m a

/-- Put a cell in its place in a list of rising addresses. -/
def Memory.insert (a : Nat) (b : Byte) : List Host.Cell → List Host.Cell
  | [] => [(a, b)]
  | (a', b') :: m => if a < a' then (a, b) :: (a', b') :: m else (a', b') :: Memory.insert a b m

/-- Store a byte: the cell's old entry goes, and a new one comes unless the byte is what an unlisted address reads as. -/
def Memory.put (c : Config) (m : List Host.Cell) (a : Nat) (b : Byte) : List Host.Cell :=
  if b = initialByte c a then m.filter (fun cell => cell.1 != a)
  else Memory.insert a b (m.filter (fun cell => cell.1 != a))

/-- The addresses rise strictly. -/
def Memory.rising : List Host.Cell → Bool
  | [] => true
  | (a, _) :: m => m.all (fun cell => decide (a < cell.1)) && Memory.rising m

/-- The canonical form: rising addresses inside 0x000-0xFFF, and no entry equal to what an unlisted address reads as. -/
def Memory.wf (c : Config) (m : List Host.Cell) : Bool :=
  Memory.rising m && m.all (fun cell => decide (cell.1 < 0x1000) && cell.2 != initialByte c cell.1)

/-- The byte at an address, with no check of the address. -/
def State.peek (s : State) (a : Nat) : Byte := (Memory.find? s.mem a).getD (initialByte s.config a)

/-- Store the byte at an address, with no check of the address. -/
def State.poke (s : State) (a : Nat) (b : Byte) : State := { s with mem := Memory.put s.config s.mem a b }

/-- Every address of an access of n bytes from `base` lies in 0x000-0xFFF; no byte, nothing to check (R55, R56, R155). -/
def inRange (base n : Nat) : Bool := n == 0 || decide (base + n - 1 ≤ 0xFFF)

/-- `MemRead(a, 1)`; none where it raises MemoryOutOfBounds (R13, R55). -/
def State.memRead (s : State) (a : Nat) : Option Byte := if a ≤ 0xFFF then some (s.peek a) else none

/-- `MemWrite(a, 1, b)`; none where it raises MemoryOutOfBounds (R13, R55). -/
def State.memWrite (s : State) (a : Nat) (b : Byte) : Option State := if a ≤ 0xFFF then some (s.poke a b) else none

/-- The n bytes from `base`, with no check. -/
def State.peekBytes (s : State) : Nat → Nat → List Byte
  | _, 0 => []
  | base, n + 1 => s.peek base :: s.peekBytes (base + 1) n

/-- Store a list of bytes from `base` upwards, with no check. -/
def State.pokeBytes (s : State) : Nat → List Byte → State
  | _, [] => s
  | base, b :: bs => (s.poke base b).pokeBytes (base + 1) bs

/-- Read n bytes from `base`, every address checked first (R56). -/
def State.readBytes (s : State) (base n : Nat) : Option (List Byte) :=
  if inRange base n then some (s.peekBytes base n) else none

/-- Write bytes from `base` upwards, every address checked before anything is written (R56). -/
def State.writeBytes (s : State) (base : Nat) (bs : List Byte) : Option State :=
  if inRange base bs.length then some (s.pokeBytes base bs) else none

/-! ## Fetch -/

/-- An instruction word cannot be fetched from here: its second byte lies outside memory (R90). -/
def State.fetchOutOfRange (s : State) : Bool := decide (s.pc.toNat > 0xFFE)

/-- The instruction word at PC, big-endian (R53). -/
def State.fetchWord (s : State) : Word := wordOfBytes (s.peek s.pc.toNat) (s.peek (s.pc.toNat + 1))

/-! ## The stack -/

/-- Write STACK[SP] and increment SP (R27, R96); none where no such slot exists. -/
def State.push (s : State) (w : Word) : Option State :=
  if h : s.sp.toNat < 16 then some { s with stack := s.stack.set s.sp.toNat w, sp := s.sp + 1 } else none

/-- Decrement SP and read STACK[SP] into PC; the slot keeps its value (R27, R97); none where no such slot exists. -/
def State.pop (s : State) : Option State :=
  if h : (s.sp - 1).toNat < 16 then some { s with sp := s.sp - 1, pc := s.stack[(s.sp - 1).toNat] } else none

/-! ## The frame buffer -/

/-- FB[px, py] of a grid; a place outside it is unlit. -/
def Display.get (fb : List (List Bool)) (px py : Nat) : Bool := (fb.getD py []).getD px false

/-- FB[px, py] <- bit; a place outside the grid is no place (log 16). -/
def Display.set (fb : List (List Bool)) (px py : Nat) (bit : Bool) : List (List Bool) :=
  fb.set py ((fb.getD py []).set px bit)

/-- The grid has DISPLAY_H rows of DISPLAY_W pixels (R38). -/
def Display.shaped (w h : Nat) (fb : List (List Bool)) : Bool := fb.length == h && fb.all (fun row => row.length == w)

/-- FB[px, py] of the state (R38). -/
def State.pixel (s : State) (px py : Nat) : Bool := Display.get s.fb px py

/-! ## Keys -/

/-- KEY[k] (R39). -/
def State.key (s : State) (k : Reg) : Bool := s.keys[k]

/-- The sixteen key codes, lowest first. -/
def keyCodes : List Reg := [0, 1, 2, 3, 4, 5, 6, 7, 8, 9, 10, 11, 12, 13, 14, 15]

/-- The smallest k with KEY[k] pressed (R142, R143). -/
def State.lowestKey (s : State) : Option Reg := keyCodes.find? (fun k => s.key k)

/-! ## The random-byte input -/

/-- `rnd8()`: exactly one byte of the input, the host's next one, or the free value when it has supplied none (R123; log
6). -/
def State.takeRandom (s : State) : Byte × State :=
  match s.randomInput with
  | b :: rest => (b, { s with randomInput := rest, randomTaken := s.randomTaken + 1 })
  | [] => (Config.randomByte s.randomTaken, { s with randomTaken := s.randomTaken + 1 })

/-! ## Taking a fault -/

/-- Fault entry (R164): MODE and FAULT are written and nothing else; `s` is the state before the Step, so its PC is the
fetch address that FAULT.pc records. -/
def State.raise (s : State) (cause : Cause) (word info : Word) : State :=
  { s with mode := .faulted, fault := { cause := cause, pc := s.pc, word := word, info := info } }

/-- The lowest address out of range of a data access from `base`: max(base, 0x1000) (R163). -/
def outOfBoundsInfo (base : Word) : Word := BitVec.ofNat 16 (max base.toNat 0x1000)

/-- MemoryOutOfBounds of a data access at I (R163). -/
def State.raiseOutOfBounds (s : State) (word : Word) : State :=
  s.raise .memoryOutOfBounds word (outOfBoundsInfo s.i)

/-- The fetch's own fault: `info` is the fetch address, and no word was fetched (R55, R90, R163). -/
def State.raiseFetch (s : State) : State := s.raise .memoryOutOfBounds 0 s.pc

/-- DecodeFailure of the word at PC (R90, R161). -/
def State.raiseDecodeFailure (s : State) : State := s.raise .decodeFailure s.fetchWord 0

/-- The one way out of Faulted, the Reset command (R169, R190): every piece of state to its reset value. KEY is the
host's input and stays; so do the parameters of the session and the random-byte input, which are not state of the block
(log 18). -/
def State.resetAgain (s : State) : State :=
  { State.resetFor s.config with keys := s.keys, randomInput := s.randomInput, randomTaken := s.randomTaken }

end Sys2Proof.Machine
end

