-- ==== Sys2Proof/Machine/Flags.lean ====
section
/-! DEFINITION. The flag: which value each flag-writing instruction gives VF (R31), and the order of the two writes
(R111). -/

namespace Sys2Proof.Machine

/-- A flag as the byte VF holds: 1 or 0 (R30). -/
def flagByte (f : Bool) : Byte := if f then 1 else 0

/-- VF <- f (R21, R31). -/
def State.setFlag (s : State) (f : Bool) : State := s.setReg 15 (flagByte f)

/-- The carry of an addition: the unsigned sum exceeds 255 (R118). -/
def carryOut (a b : Byte) : Bool := decide (a.toNat + b.toNat > 255)

/-- No borrow of `a - b`: a >= b (R119, R121). -/
def noBorrow (a b : Byte) : Bool := decide (a.toNat ≥ b.toNat)

/-- The bit a right shift by one moves out (R120). -/
def lowBit (a : Byte) : Bool := a.getLsbD 0

/-- The bit a left shift by one moves out (R122). -/
def highBit (a : Byte) : Bool := a.getLsbD 7

/-- V[x] <- result, then VF <- flag: the flag is written last, so VF holds it when x = 15 (R111). -/
def State.setWithFlag (s : State) (x : Reg) (result : Byte) (flag : Bool) : State := (s.setReg x result).setFlag flag

end Sys2Proof.Machine
end

