-- ==== Sys2Proof/Machine/Operands.lean ====
section
/-! DEFINITION. The operand forms: extensions (R73), exact arithmetic narrowed mod 256 (R110), glyph addresses (R132),
decimal digits (R133) and the bits of a sprite byte (R152). -/

namespace Sys2Proof.Machine

/-- `zext_16(nnn)` (R73). -/
def addressOf (nnn : Addr) : Word := nnn.setWidth 16

/-- A byte zero-extended to 16 bits (R73). -/
def wordOf (b : Byte) : Word := b.setWidth 16

/-- `(a + b) mod 256` (R110). -/
def addByte (a b : Byte) : Byte := a + b

/-- `(a - b) mod 256` (R110). -/
def subByte (a b : Byte) : Byte := a - b

/-- `a >> 1` (R120). -/
def shiftRightByte (a : Byte) : Byte := a >>> 1

/-- `(a << 1) mod 256` (R122). -/
def shiftLeftByte (a : Byte) : Byte := a <<< 1

/-- The digit LD F,Vx takes from its register: all of it, or its low four bits under FONT_DIGIT_MASK (R132, D16). -/
def glyphDigit (c : Config) (b : Byte) : Byte := if c.fontDigitMask then b &&& 0x0F else b

/-- `0x050 + 5 * digit` (R132). -/
def glyphAddress (digit : Byte) : Word := 0x050 + 5 * wordOf digit

/-- Hundreds, tens, units (R133). -/
def decimalDigits (b : Byte) : List Byte :=
  [BitVec.ofNat 8 (b.toNat / 100), BitVec.ofNat 8 (b.toNat / 10 % 10), BitVec.ofNat 8 (b.toNat % 10)]

/-- The bit of a sprite byte at column c, most significant bit first (R152). -/
def spriteBit (b : Byte) (c : Nat) : Bool := b.getLsbD (7 - c)

/-- The key code in a register, if it is one: 0x0..0xF (R139, R165). -/
def keyCode (b : Byte) : Option Reg := if h : b.toNat < 16 then some ⟨b.toNat, h⟩ else none

end Sys2Proof.Machine
end

