-- ==== Sys2Proof/Machine/Arith.lean ====
section
/-! DEFINITION. Register and arithmetic instructions (41_register_arith.md): loads, logic, the flag-writing arithmetic and
RND. Operands are read from the state before the Step. -/

namespace Sys2Proof.Machine

/-- LD Vx,kk (R112). -/
def execLdImm (x : Reg) (kk : Byte) (s : State) : Host.Outcome State Fault Refusal :=
  .next (s.advance.setReg x kk)

/-- ADD Vx,kk (R113): no flag. -/
def execAddImm (x : Reg) (kk : Byte) (s : State) : Host.Outcome State Fault Refusal :=
  .next (s.advance.setReg x (addByte (s.reg x) kk))

/-- LD Vx,Vy (R114). -/
def execLdReg (x y : Reg) (s : State) : Host.Outcome State Fault Refusal :=
  .next (s.advance.setReg x (s.reg y))

/-- OR Vx,Vy (R115): no flag (D14). -/
def execOrReg (x y : Reg) (s : State) : Host.Outcome State Fault Refusal :=
  .next (s.advance.setReg x (s.reg x ||| s.reg y))

/-- AND Vx,Vy (R116): no flag (D14). -/
def execAndReg (x y : Reg) (s : State) : Host.Outcome State Fault Refusal :=
  .next (s.advance.setReg x (s.reg x &&& s.reg y))

/-- XOR Vx,Vy (R117): no flag (D14). -/
def execXorReg (x y : Reg) (s : State) : Host.Outcome State Fault Refusal :=
  .next (s.advance.setReg x (s.reg x ^^^ s.reg y))

/-- ADD Vx,Vy (R118): VF is the carry. -/
def execAddReg (x y : Reg) (s : State) : Host.Outcome State Fault Refusal :=
  .next (s.advance.setWithFlag x (addByte (s.reg x) (s.reg y)) (carryOut (s.reg x) (s.reg y)))

/-- SUB Vx,Vy (R119): VF is 'no borrow'. -/
def execSub (x y : Reg) (s : State) : Host.Outcome State Fault Refusal :=
  .next (s.advance.setWithFlag x (subByte (s.reg x) (s.reg y)) (noBorrow (s.reg x) (s.reg y)))

/-- SHR Vx (R120): in place; y is ignored (R79, D13). -/
def execShr (x _y : Reg) (s : State) : Host.Outcome State Fault Refusal :=
  .next (s.advance.setWithFlag x (shiftRightByte (s.reg x)) (lowBit (s.reg x)))

/-- SUBN Vx,Vy (R121): the operands of SUB swapped. -/
def execSubn (x y : Reg) (s : State) : Host.Outcome State Fault Refusal :=
  .next (s.advance.setWithFlag x (subByte (s.reg y) (s.reg x)) (noBorrow (s.reg y) (s.reg x)))

/-- SHL Vx (R122): in place; y is ignored (R79, D13). -/
def execShl (x _y : Reg) (s : State) : Host.Outcome State Fault Refusal :=
  .next (s.advance.setWithFlag x (shiftLeftByte (s.reg x)) (highBit (s.reg x)))

/-- RND Vx,kk (R123): takes exactly one byte of the random-byte input. -/
def execRnd (x : Reg) (kk : Byte) (s : State) : Host.Outcome State Fault Refusal :=
  .next (s.advance.takeRandom.2.setReg x (s.advance.takeRandom.1 &&& kk))

end Sys2Proof.Machine
end

