-- ==== Sys2Proof/Machine/ControlFlow.lean ====
section
/-! DEFINITION. Control flow: SYS, JP, CALL, RET, the skips (40_control_flow.md). Each meaning takes the state before the
Step, whose PC is the fetch address; it advances PC first (R91), and a fault it raises leaves that state but for MODE and
FAULT (R164; log 10). -/

namespace Sys2Proof.Machine

/-- PC one word further when the condition holds (R102). -/
def State.skipIf (s : State) (c : Bool) : State := if c then s.advance else s

/-- SYS nnn (R93): a no-op; under the optional parameter SYS_FAULTS it raises DecodeFailure (D2, log 5). -/
def execSys (nnn : Addr) (s : State) : Host.Outcome State Fault Refusal :=
  if s.config.sysFaults then .next (s.raise .decodeFailure (encode (.sys nnn)) 0) else .next s.advance

/-- JP nnn (R94). -/
def execJp (nnn : Addr) (s : State) : Host.Outcome State Fault Refusal :=
  .next { s.advance with pc := addressOf nnn }

/-- JP V0,nnn (R95): the sum is not masked to 12 bits. -/
def execJpV0 (nnn : Addr) (s : State) : Host.Outcome State Fault Refusal :=
  .next { s.advance with pc := addressOf nnn + wordOf (s.reg 0) }

/-- CALL nnn (R96): the saved address is the one after the CALL. -/
def execCall (nnn : Addr) (s : State) : Host.Outcome State Fault Refusal :=
  if s.sp = 16 then .next (s.raise .stackOverflow (encode (.call nnn)) 16)
  else
    match s.advance.push s.advance.pc with
    | some t => .next { t with pc := addressOf nnn }
    | none => .fault .stackSlotAbsent

/-- RET (R97). -/
def execRet (s : State) : Host.Outcome State Fault Refusal :=
  if s.sp = 0 then .next (s.raise .stackUnderflow (encode .ret) 0)
  else
    match s.advance.pop with
    | some t => .next t
    | none => .fault .stackSlotAbsent

/-- SE Vx,kk (R98). -/
def execSeImm (x : Reg) (kk : Byte) (s : State) : Host.Outcome State Fault Refusal :=
  .next (s.advance.skipIf (s.reg x == kk))

/-- SNE Vx,kk (R99). -/
def execSneImm (x : Reg) (kk : Byte) (s : State) : Host.Outcome State Fault Refusal :=
  .next (s.advance.skipIf (s.reg x != kk))

/-- SE Vx,Vy (R100). -/
def execSeReg (x y : Reg) (s : State) : Host.Outcome State Fault Refusal :=
  .next (s.advance.skipIf (s.reg x == s.reg y))

/-- SNE Vx,Vy (R101). -/
def execSneReg (x y : Reg) (s : State) : Host.Outcome State Fault Refusal :=
  .next (s.advance.skipIf (s.reg x != s.reg y))

end Sys2Proof.Machine
end

