-- ==== Sys2Proof/Machine/Display.lean ====
section
/-! DEFINITION. Display instructions (43_display.md): CLS and the sprite-draw and collision detector. -/

namespace Sys2Proof.Machine

/-- CLS (R150). -/
def execCls (s : State) : Host.Outcome State Fault Refusal :=
  .next { s.advance with fb := blankDisplay s.config.displayW s.config.displayH }

/-- What a draw carries from pixel to pixel: the frame buffer and whether a pixel has collided (R151). -/
structure DrawState where
  fb : List (List Bool)
  collided : Bool
  deriving DecidableEq, Repr

/-- One pixel of a sprite: XOR the bit into the pixel, dropped outside the display (R151, R153); a sprite bit 1 on a lit
pixel collides, and nothing clears a collision (R154). -/
def drawPixel (c : Config) (px py : Nat) (bit : Bool) (d : DrawState) : DrawState :=
  if px < c.displayW ∧ py < c.displayH then
    { fb := Display.set d.fb px py (xor (Display.get d.fb px py) bit)
      collided := d.collided || (bit && Display.get d.fb px py) }
  else d

/-- The pixels of one sprite byte from column k of it on: bit 7 at column ox, bit 0 at column ox + 7 (R152). -/
def drawColumns (c : Config) (ox py : Nat) (b : Byte) : List Nat → DrawState → DrawState
  | [], d => d
  | k :: ks, d => drawColumns c ox py b ks (drawPixel c (ox + k) py (spriteBit b k) d)

/-- The sprite's bytes, each one row below the one before (R152). -/
def drawRows (c : Config) (ox : Nat) : Nat → List Byte → DrawState → DrawState
  | _, [], d => d
  | py, b :: bs, d => drawRows c ox (py + 1) bs (drawColumns c ox py b [0, 1, 2, 3, 4, 5, 6, 7] d)

/-- DRW Vx,Vy,n (R151): V[x], V[y] and I are read before VF is reset (R155); every sprite address is checked before
anything is drawn; VF is reset once at the start and holds the collision at the end (R154). -/
def execDrw (x y : Reg) (n : Nibble) (s : State) : Host.Outcome State Fault Refusal :=
  match s.readBytes s.i.toNat n.toNat with
  | some bytes =>
    let start := s.advance.setFlag false
    let drawn := drawRows s.config (s.reg x).toNat (s.reg y).toNat bytes { fb := start.fb, collided := false }
    .next ({ start with fb := drawn.fb }.setFlag drawn.collided)
  | none => .next (s.raiseOutOfBounds (encode (.drw x y n)))

end Sys2Proof.Machine
end

