-- ==== Sys2Proof/Machine/Keys.lean ====
section
/-! DEFINITION. Key instructions and the key-wait poll (42_memory_timer_key.md sections 4 and 5). KEY is level-sampled at
the Step (D18, D30). -/

namespace Sys2Proof.Machine

/-- SKP Vx (R139): InvalidKey when V[x] names no key (R165). -/
def execSkp (x : Reg) (s : State) : Host.Outcome State Fault Refusal :=
  match keyCode (s.reg x) with
  | some k => .next (s.advance.skipIf (s.key k))
  | none => .next (s.raise .invalidKey (encode (.skp x)) (wordOf (s.reg x)))

/-- SKNP Vx (R140): InvalidKey when V[x] names no key (R165). -/
def execSknp (x : Reg) (s : State) : Host.Outcome State Fault Refusal :=
  match keyCode (s.reg x) with
  | some k => .next (s.advance.skipIf (!s.key k))
  | none => .next (s.raise .invalidKey (encode (.sknp x)) (wordOf (s.reg x)))

/-- LD Vx,K (R141): enter AwaitingKey(x); KEY is not looked at in this Step. -/
def execLdVK (x : Reg) (s : State) : Host.Outcome State Fault Refusal :=
  .next { s.advance with mode := .awaitingKey, waitReg := x }

/-- One Step in AwaitingKey (R142, R143): the lowest pressed key goes to V[WAIT_REG] and the mode back to Running; with no
key pressed nothing changes. -/
def State.keyWaitPoll (s : State) : State :=
  match s.lowestKey with
  | some k => { s.setReg s.waitReg (BitVec.ofNat 8 k.val) with mode := .running }
  | none => s

end Sys2Proof.Machine
end

