-- ==== Sys2Proof/Machine/MemoryTimer.lean ====
section
/-! DEFINITION. Address register, memory and timer instructions (42_memory_timer_key.md sections 1-3). Every address is
checked before anything is written; I is unchanged by the stores and loads (D15). -/

namespace Sys2Proof.Machine

/-- LD I,nnn (R130). -/
def execLdI (nnn : Addr) (s : State) : Host.Outcome State Fault Refusal :=
  .next { s.advance with i := addressOf nnn }

/-- ADD I,Vx (R131): mod 2^16, no clamping, no flag. -/
def execAddI (x : Reg) (s : State) : Host.Outcome State Fault Refusal :=
  .next { s.advance with i := s.i + wordOf (s.reg x) }

/-- LD F,Vx (R132). -/
def execLdF (x : Reg) (s : State) : Host.Outcome State Fault Refusal :=
  .next { s.advance with i := glyphAddress (glyphDigit s.config (s.reg x)) }

/-- LD B,Vx (R133). -/
def execLdB (x : Reg) (s : State) : Host.Outcome State Fault Refusal :=
  match s.advance.writeBytes s.i.toNat (decimalDigits (s.reg x)) with
  | some t => .next t
  | none => .next (s.raiseOutOfBounds (encode (.ldB x)))

/-- LD [I],Vx (R134). -/
def execLdMemV (x : Reg) (s : State) : Host.Outcome State Fault Refusal :=
  match s.advance.writeBytes s.i.toNat (s.firstRegs x) with
  | some t => .next t
  | none => .next (s.raiseOutOfBounds (encode (.ldMemV x)))

/-- LD Vx,[I] (R135). -/
def execLdVMem (x : Reg) (s : State) : Host.Outcome State Fault Refusal :=
  match s.readBytes s.i.toNat (x.val + 1) with
  | some bytes => .next (s.advance.loadRegs 0 bytes)
  | none => .next (s.raiseOutOfBounds (encode (.ldVMem x)))

/-- LD Vx,DT (R136). -/
def execLdVDt (x : Reg) (s : State) : Host.Outcome State Fault Refusal :=
  .next (s.advance.setReg x s.dt)

/-- LD DT,Vx (R137). -/
def execLdDtV (x : Reg) (s : State) : Host.Outcome State Fault Refusal :=
  .next { s.advance with dt := s.reg x }

/-- LD ST,Vx (R138). -/
def execLdStV (x : Reg) (s : State) : Host.Outcome State Fault Refusal :=
  .next { s.advance with st := s.reg x }

end Sys2Proof.Machine
end

