-- ==== Sys2Proof/Machine/Step.lean ====
section
/-! DEFINITION. One Step (R90, R92): what it does depends on MODE. -/

namespace Sys2Proof.Machine

/-- One Step. Running: fetch, decode, execute, with the faults of the fetch and of the decoder first (R90, R167).
AwaitingKey: one key poll (R142). Faulted: no effect (R168). -/
def step (s : State) : Host.Outcome State Fault Refusal :=
  match s.mode with
  | .running =>
    if s.fetchOutOfRange then .next s.raiseFetch
    else
      match decode s.fetchWord with
      | .ok i => exec i s
      | .error _ => .next s.raiseDecodeFailure
  | .awaitingKey => .next s.keyWaitPoll
  | .faulted => .next s

/-- The state with the word of a table row stored where `step` fetches next: its two bytes at PC and PC + 1, high byte
first, and MODE Running, without which a Step fetches nothing (log 12). A number that is no word of `nbits` bits stores
nothing. -/
def State.withFetchWord (s : State) (nbits w : Nat) : State :=
  if nbits ≤ 16 ∧ w < 2 ^ nbits then
    { s with mode := .running }.pokeBytes s.pc.toNat [highByte (BitVec.ofNat 16 w), lowByte (BitVec.ofNat 16 w)]
  else s

end Sys2Proof.Machine
end

