-- ==== Sys2Proof/Machine/Commands.lean ====
section
/-! DEFINITION. The host's commands (60_exceptions.md section 7, 70_reset_and_hazards.md): Reset, Load, Step, Tick and
SetKey, each one atomic transition, in any order (R181, R183); and the outputs the host reads between them (R45). -/

namespace Sys2Proof.Machine

/-- The commands of R181 with their arguments. -/
inductive Command where
  | reset
  | load (bytes : List Byte)
  | step (random : Byte)
  | tick
  | setKey (k : Reg) (pressed : Bool)
  deriving DecidableEq, Repr

/-- A timer one lower, floored at 0 (R174). -/
def countDown (t : Byte) : Byte := if t = 0 then 0 else t - 1

/-- Tick, in every mode (R174). -/
def State.tick (s : State) : State := { s with dt := countDown s.dt, st := countDown s.st }

/-- RomTooLarge (R166): nothing is written but MODE and FAULT; the length is saturated at 0xFFFF. -/
def State.raiseRomTooLarge (s : State) (length : Nat) : State :=
  { s with
    mode := .faulted
    fault := { cause := .romTooLarge, pc := 0x200, word := 0, info := BitVec.ofNat 16 (min length 0xFFFF) } }

/-- Load (R194, R195): the bytes to 0x200 upwards and PC to 0x200, or RomTooLarge. -/
def State.load (s : State) (bytes : List Byte) : State :=
  if bytes.length ≤ 0xE00 then { s.pokeBytes 0x200 bytes with pc := 0x200 } else s.raiseRomTooLarge bytes.length

/-- SetKey (R182). -/
def State.setKey (s : State) (k : Reg) (pressed : Bool) : State := { s with keys := s.keys.set k pressed }

/-- One command (R181). Step brings one random byte, which only RND takes (log 6). -/
def State.command (s : State) : Command → Host.Outcome State Fault Refusal
  | .reset => .next s.resetAgain
  | .load bytes => .next (s.load bytes)
  | .step random => Sys2Proof.Machine.step { s with randomInput := [random] }
  | .tick => .next s.tick
  | .setKey k pressed => .next (s.setKey k pressed)

/-- A sequence of commands, one after the other (R183), stopping where one answers no next state. -/
def State.commands (s : State) : List Command → Host.Outcome State Fault Refusal
  | [] => .next s
  | c :: cs =>
    match s.command c with
    | .next t => t.commands cs
    | .fault r => .fault r
    | .refused r => .refused r

/-! ## Outputs (R45): reading them changes nothing -/

/-- `MODE[1:0]` (R40). -/
def Mode.code : Mode → BitVec 2
  | .running => 0
  | .awaitingKey => 1
  | .faulted => 2

/-- `FAULT.cause`, the codes of R160. -/
def Cause.code : Cause → BitVec 4
  | .none => 0
  | .decodeFailure => 1
  | .stackOverflow => 2
  | .stackUnderflow => 3
  | .memoryOutOfBounds => 4
  | .invalidKey => 5
  | .romTooLarge => 6

/-- The register a key wait will write, while there is one: `AwaitingKey(r)` (R40). -/
def State.awaited (s : State) : Option Reg := if s.mode = .awaitingKey then some s.waitReg else none

/-- The display collaborator's `get(x, y)`, defined inside the display only (R157). -/
def State.displayGet (s : State) (px py : Nat) : Option Bool :=
  if px < s.config.displayW ∧ py < s.config.displayH then some (s.pixel px py) else none

/-- The timer query (R45). -/
def State.timers (s : State) : Byte × Byte := (s.dt, s.st)

end Sys2Proof.Machine
end

