-- ==== Sys2Proof/Safety.lean ====
section
/-! DEFINITION. What claims about the core are made of: the kinds of state and 'nothing else changed', the invariant of
every reachable state, and the opcode table as masks and matches. -/

namespace Sys2Proof.Machine

/-! ## Frames -/

/-- One place of the state: every place a command could change. -/
inductive Field where
  | v (r : Reg)
  | i
  | pc
  | sp
  | slot (k : Reg)
  | dt
  | st
  | mem (a : Nat)
  | pixel (px py : Nat)
  | mode
  | waitReg
  | fault
  | key (k : Reg)
  | randomInput
  | randomTaken
  | config
  deriving DecidableEq, Repr

/-- The place holds the same in both states; memory is compared byte by byte, the display pixel by pixel. -/
def SameAt (s t : State) : Field → Prop
  | .v r => t.reg r = s.reg r
  | .i => t.i = s.i
  | .pc => t.pc = s.pc
  | .sp => t.sp = s.sp
  | .slot k => t.stack[k] = s.stack[k]
  | .dt => t.dt = s.dt
  | .st => t.st = s.st
  | .mem a => t.peek a = s.peek a
  | .pixel px py => t.pixel px py = s.pixel px py
  | .mode => t.mode = s.mode
  | .waitReg => t.waitReg = s.waitReg
  | .fault => t.fault = s.fault
  | .key k => t.key k = s.key k
  | .randomInput => t.randomInput = s.randomInput
  | .randomTaken => t.randomTaken = s.randomTaken
  | .config => t.config = s.config

/-- Nothing outside `touched` differs between the two states. -/
def Unchanged (s t : State) (touched : Set Field) : Prop := ∀ f, f ∉ touched → SameAt s t f

/-- The n memory places from `base` upwards. -/
def memPlaces (base n : Nat) : Set Field := { f | ∃ k, k < n ∧ f = .mem (base + k) }

/-- The places V[0]..V[x]. -/
def regsUpTo (x : Reg) : Set Field := { f | ∃ r : Reg, r ≤ x ∧ f = .v r }

/-- A function of the state after, applied to the next state if there is one. -/
def mapNext (f : State → State) : Host.Outcome State Fault Refusal → Host.Outcome State Fault Refusal
  | .next t => .next (f t)
  | .fault r => .fault r
  | .refused r => .refused r

/-! ## The invariant -/

/-- What holds at reset and after every command: memory in canonical form, the display of its size (R38), SP at most 16
(R26), PC at most 0x10FE (R25), every saved address at most 0x1000 (R97), and a fault recorded exactly in mode Faulted
(R41). -/
abbrev State.Inv (s : State) : Prop :=
  Memory.wf s.config s.mem = true ∧
  Display.shaped s.config.displayW s.config.displayH s.fb = true ∧
  s.sp.toNat ≤ 16 ∧
  s.pc.toNat ≤ 0x10FE ∧
  (∀ k : Reg, s.stack[k].toNat ≤ 0x1000) ∧
  (s.mode = .faulted ↔ s.fault.cause ≠ .none)

/-! ## Sprites, as a picture -/

/-- The sprite of n bytes from `base` drawn at (ox, oy) has a 1 bit at (px, py) (R152). -/
def spriteCovers (s : State) (base ox oy n px py : Nat) : Bool :=
  decide (ox ≤ px ∧ px < ox + 8 ∧ oy ≤ py ∧ py < oy + n) && spriteBit (s.peek (base + (py - oy))) (px - ox)

/-- The place is inside the display (R38, R153). -/
abbrev onDisplay (s : State) (px py : Nat) : Prop := px < s.config.displayW ∧ py < s.config.displayH

/-- The places of the display that the sprite covers with a 1 bit. -/
def spritePlaces (s : State) (base ox oy n : Nat) : Set Field :=
  { f | ∃ px py, onDisplay s px py ∧ spriteCovers s base ox oy n px py = true ∧ f = .pixel px py }

end Sys2Proof.Machine

namespace Sys2Proof

/-! ## The opcode table, as spec/opcode_table.json gives it -/

/-- A row's mask and match. -/
structure MaskMatch where
  mask : Word
  value : Word
  deriving DecidableEq, Repr

/-- `(w AND mask) == match` (R75). -/
def MaskMatch.accepts (m : MaskMatch) (w : Word) : Bool := w &&& m.mask == m.value

/-- How many nibbles of the pattern are literal: the more, the fewer wildcards (R75). -/
def MaskMatch.literals (m : MaskMatch) : Nat := [0, 1, 2, 3].countP (fun k => nibble m.mask k == 0xF)

/-- The row of an instruction. -/
def tableRow : Instr → MaskMatch
  | .sys _ => ⟨0xF000, 0x0000⟩
  | .cls => ⟨0xFFFF, 0x00E0⟩
  | .ret => ⟨0xFFFF, 0x00EE⟩
  | .jp _ => ⟨0xF000, 0x1000⟩
  | .call _ => ⟨0xF000, 0x2000⟩
  | .seImm _ _ => ⟨0xF000, 0x3000⟩
  | .sneImm _ _ => ⟨0xF000, 0x4000⟩
  | .seReg _ _ => ⟨0xF00F, 0x5000⟩
  | .ldImm _ _ => ⟨0xF000, 0x6000⟩
  | .addImm _ _ => ⟨0xF000, 0x7000⟩
  | .ldReg _ _ => ⟨0xF00F, 0x8000⟩
  | .orReg _ _ => ⟨0xF00F, 0x8001⟩
  | .andReg _ _ => ⟨0xF00F, 0x8002⟩
  | .xorReg _ _ => ⟨0xF00F, 0x8003⟩
  | .addReg _ _ => ⟨0xF00F, 0x8004⟩
  | .sub _ _ => ⟨0xF00F, 0x8005⟩
  | .shr _ _ => ⟨0xF00F, 0x8006⟩
  | .subn _ _ => ⟨0xF00F, 0x8007⟩
  | .shl _ _ => ⟨0xF00F, 0x800E⟩
  | .sneReg _ _ => ⟨0xF00F, 0x9000⟩
  | .ldI _ => ⟨0xF000, 0xA000⟩
  | .jpV0 _ => ⟨0xF000, 0xB000⟩
  | .rnd _ _ => ⟨0xF000, 0xC000⟩
  | .drw _ _ _ => ⟨0xF000, 0xD000⟩
  | .skp _ => ⟨0xF0FF, 0xE09E⟩
  | .sknp _ => ⟨0xF0FF, 0xE0A1⟩
  | .ldVDt _ => ⟨0xF0FF, 0xF007⟩
  | .ldVK _ => ⟨0xF0FF, 0xF00A⟩
  | .ldDtV _ => ⟨0xF0FF, 0xF015⟩
  | .ldStV _ => ⟨0xF0FF, 0xF018⟩
  | .addI _ => ⟨0xF0FF, 0xF01E⟩
  | .ldF _ => ⟨0xF0FF, 0xF029⟩
  | .ldB _ => ⟨0xF0FF, 0xF033⟩
  | .ldMemV _ => ⟨0xF0FF, 0xF055⟩
  | .ldVMem _ => ⟨0xF0FF, 0xF065⟩

/-- The 35 rows, in the table's order. -/
def opcodeTable : List MaskMatch :=
  [⟨0xF000, 0x0000⟩, ⟨0xFFFF, 0x00E0⟩, ⟨0xFFFF, 0x00EE⟩, ⟨0xF000, 0x1000⟩, ⟨0xF000, 0x2000⟩, ⟨0xF000, 0x3000⟩,
   ⟨0xF000, 0x4000⟩, ⟨0xF00F, 0x5000⟩, ⟨0xF000, 0x6000⟩, ⟨0xF000, 0x7000⟩] ++
  [⟨0xF00F, 0x8000⟩, ⟨0xF00F, 0x8001⟩, ⟨0xF00F, 0x8002⟩, ⟨0xF00F, 0x8003⟩, ⟨0xF00F, 0x8004⟩, ⟨0xF00F, 0x8005⟩,
   ⟨0xF00F, 0x8006⟩, ⟨0xF00F, 0x8007⟩, ⟨0xF00F, 0x800E⟩, ⟨0xF00F, 0x9000⟩] ++
  [⟨0xF000, 0xA000⟩, ⟨0xF000, 0xB000⟩, ⟨0xF000, 0xC000⟩, ⟨0xF000, 0xD000⟩, ⟨0xF0FF, 0xE09E⟩, ⟨0xF0FF, 0xE0A1⟩] ++
  [⟨0xF0FF, 0xF007⟩, ⟨0xF0FF, 0xF00A⟩, ⟨0xF0FF, 0xF015⟩, ⟨0xF0FF, 0xF018⟩, ⟨0xF0FF, 0xF01E⟩, ⟨0xF0FF, 0xF029⟩,
   ⟨0xF0FF, 0xF033⟩, ⟨0xF0FF, 0xF055⟩, ⟨0xF0FF, 0xF065⟩]

/-- An instruction stands for words of the row with this mask and match: its own word agrees with the row, and is read
back as the instruction. -/
def Encoded (i : Instr) (mask value : Word) : Prop := encode i &&& mask = value ∧ decode (encode i) = .ok i

end Sys2Proof
end

