-- ==== Sys2Proof/Certificates/Slice0/Obligations.lean ====
section
/-! DEFINITION. The statements for the provers, one definition each; OBLIGATIONS.json lists them with the rule of spec/ each
one formalises. `Unchanged s t places` is the frame: nothing outside `places` differs, memory byte by byte and the display
pixel by pixel. -/

open Sys2Proof Sys2Proof.Machine

/-! ## Encoding (30_encoding.md) -/

/-- The six words of the source's own decode examples, and one word of each family beside them, decode to the instructions
they stand for (R71, R75, R76; 95 L1-4, 2.1). -/
def Obligations.DecodesTheSpecsWords : Prop :=
  decode 0x00E0 = .ok .cls ∧ decode 0x1234 = .ok (.jp 0x234) ∧ decode 0x8120 = .ok (.ldReg 1 2) ∧
  decode 0xC5FF = .ok (.rnd 5 0xFF) ∧ decode 0xD457 = .ok (.drw 4 5 7) ∧ decode 0xFA55 = .ok (.ldMemV 10) ∧
  decode 0x00EE = .ok .ret ∧ decode 0x00E1 = .ok (.sys 0x0E1) ∧ decode 0x9AB0 = .ok (.sneReg 10 11) ∧
  decode 0x8ABE = .ok (.shl 10 11) ∧ decode 0xE3A1 = .ok (.sknp 3) ∧ decode 0xF11E = .ok (.addI 1) ∧
  decode 0x5121 = .error (.noMatch 0x5121)

/-- Every well-formed instruction is read back from its own word, whatever its operands (R72, R73, R76). -/
def Obligations.DecodeOfEncode : Prop :=
  ∀ i : Instr, i.wellFormed = true → decode (encode i) = .ok i

/-- A word that decodes is the word of the instruction it decodes to: its literal nibbles and its fields are all of it
(R72, R76). For SHR and SHL this needs the field y, which R79 says is ignored, as an operand of the syntax: that y survives
decoding is the model's choice (log 15). -/
def Obligations.EncodeOfDecode : Prop :=
  ∀ (w : Word) (i : Instr), decode w = .ok i → encode i = w ∧ i.wellFormed = true

/-- The words that do not decode are exactly the five classes of R78. -/
def Obligations.IllegalWordsAreTheFiveClasses : Prop :=
  ∀ w : Word, decode w = .error (.noMatch w) ↔
    (nibble w 3 = 0x5 ∧ nibble w 0 ≠ 0x0) ∨
    (nibble w 3 = 0x8 ∧ nibble w 0 ∈ [0x8, 0x9, 0xA, 0xB, 0xC, 0xD, 0xF]) ∨
    (nibble w 3 = 0x9 ∧ nibble w 0 ≠ 0x0) ∨
    (nibble w 3 = 0xE ∧ fieldKK w ∉ [0x9E, 0xA1]) ∨
    (nibble w 3 = 0xF ∧ fieldKK w ∉ [0x07, 0x0A, 0x15, 0x18, 0x1E, 0x29, 0x33, 0x55, 0x65])

/-- Decoding follows the masks and matches of the opcode table (R75): the row of the instruction matches the word, every
other row that matches has fewer literal nibbles, nothing decodes exactly where no row matches, and only 0x00E0 and 0x00EE
match two rows. -/
def Obligations.MostSpecificPatternWins : Prop :=
  (∀ (w : Word) (i : Instr), decode w = .ok i →
    tableRow i ∈ opcodeTable ∧ (tableRow i).accepts w = true ∧
    ∀ m ∈ opcodeTable, m.accepts w = true → m ≠ tableRow i → m.literals < (tableRow i).literals) ∧
  (∀ w : Word, decode w = .error (.noMatch w) ↔ ∀ m ∈ opcodeTable, m.accepts w = false) ∧
  (∀ w : Word, (∃ m ∈ opcodeTable, ∃ m' ∈ opcodeTable, m ≠ m' ∧ m.accepts w = true ∧ m'.accepts w = true) ↔
    (w = 0x00E0 ∨ w = 0x00EE))

/-! ## The Step (R90, R92) -/

/-- Running, with both bytes of the word inside memory: where the two bytes at PC, the first one the high byte, decode to
an instruction, the Step is that instruction's meaning at this state, with nothing around it (R53, R90; log 10). -/
def Obligations.StepRunsTheDecodedInstruction : Prop :=
  ∀ (s : State) (i : Instr), s.mode = .running → s.pc.toNat ≤ 0xFFE →
    decodeBytes [s.peek s.pc.toNat, s.peek (s.pc.toNat + 1)] = .ok (i, []) →
      step s = exec i s ∧
      (encode i).toNat = (s.peek s.pc.toNat).toNat * 256 + (s.peek (s.pc.toNat + 1)).toNat

/-- Running with PC above 0xFFE: the Step takes MemoryOutOfBounds with info PC and word 0, and changes nothing else
(R55, R90, R163, R164). -/
def Obligations.FetchAboveMemoryFaults : Prop :=
  ∀ s : State, s.mode = .running → s.pc.toNat > 0xFFE →
    ∃ t, step s = .next t ∧ t.mode = .faulted ∧ t.fault = ⟨.memoryOutOfBounds, s.pc, 0, s.pc⟩ ∧
      Unchanged s t {.mode, .fault}

/-- Running on a word that no pattern matches: the Step takes DecodeFailure with the word, and changes nothing else
(R78, R161, R164). -/
def Obligations.IllegalWordFaults : Prop :=
  ∀ (s : State) (e : DecodeError), s.mode = .running → s.pc.toNat ≤ 0xFFE →
    decodeBytes [s.peek s.pc.toNat, s.peek (s.pc.toNat + 1)] = .error e →
      ∃ t, step s = .next t ∧ t.mode = .faulted ∧
        t.fault = ⟨.decodeFailure, s.pc, s.peek s.pc.toNat ++ s.peek (s.pc.toNat + 1), 0⟩ ∧
        Unchanged s t {.mode, .fault}

/-- One Step in AwaitingKey (R142, R143): with no key pressed nothing changes; otherwise the smallest pressed code goes to
the awaited register and the mode back to Running, and nothing else changes. That WAIT_REG too is unchanged once the mode
is Running again, where R40 gives it no meaning, is the model's reading (log 9). -/
def Obligations.KeyWaitPollTakesTheLowestKey : Prop :=
  ∀ s : State, s.mode = .awaitingKey →
    ((∀ k : Reg, s.key k = false) → step s = .next s) ∧
    (∀ k : Reg, s.key k = true → (∀ j : Reg, j < k → s.key j = false) →
      ∃ t, step s = .next t ∧ (t.reg s.waitReg).toNat = k.val ∧ t.mode = .running ∧
        Unchanged s t {.mode, .v s.waitReg})

/-! ## Faults (60_exceptions.md) -/

/-- The fault R160 to R167 give a Step in Running, if any: the fetch range first, then the decoder, then the instruction's
own check. -/
def specFault (s : State) : Option FaultRecord :=
  let w : Word := s.peek s.pc.toNat ++ s.peek (s.pc.toNat + 1)
  let outOfBounds : FaultRecord := ⟨.memoryOutOfBounds, s.pc, w, BitVec.ofNat 16 (max s.i.toNat 0x1000)⟩
  if s.pc.toNat > 0xFFE then some ⟨.memoryOutOfBounds, s.pc, 0, s.pc⟩
  else
    match decode w with
    | .error _ => some ⟨.decodeFailure, s.pc, w, 0⟩
    | .ok (.sys _) => if s.config.sysFaults then some ⟨.decodeFailure, s.pc, w, 0⟩ else none
    | .ok (.call _) => if s.sp = 16 then some ⟨.stackOverflow, s.pc, w, 16⟩ else none
    | .ok .ret => if s.sp = 0 then some ⟨.stackUnderflow, s.pc, w, 0⟩ else none
    | .ok (.drw _ _ n) => if n.toNat > 0 ∧ s.i.toNat + n.toNat - 1 > 0xFFF then some outOfBounds else none
    | .ok (.ldB _) => if s.i.toNat + 2 > 0xFFF then some outOfBounds else none
    | .ok (.ldMemV x) => if s.i.toNat + x.val > 0xFFF then some outOfBounds else none
    | .ok (.ldVMem x) => if s.i.toNat + x.val > 0xFFF then some outOfBounds else none
    | .ok (.skp x) => if (s.reg x).toNat > 0xF then some ⟨.invalidKey, s.pc, w, (s.reg x).setWidth 16⟩ else none
    | .ok (.sknp x) => if (s.reg x).toNat > 0xF then some ⟨.invalidKey, s.pc, w, (s.reg x).setWidth 16⟩ else none
    | .ok _ => none

/-- A Step in Running faults exactly where R160 to R167 say, with the cause, word and info they say; it then changes MODE
and FAULT only, and otherwise leaves FAULT and does not enter Faulted (the clause for SYS is the optional parameter of D2,
log 5). -/
def Obligations.FaultsExactlyAsTheTableSays : Prop :=
  ∀ s : State, s.mode = .running → s.sp.toNat ≤ 16 →
    (∀ r, specFault s = some r → step s = .next { s with mode := .faulted, fault := r }) ∧
    (specFault s = none → ∃ t, step s = .next t ∧ t.mode ≠ .faulted ∧ t.fault = s.fault)

/-- Faults are precise (R164): a Step that enters Faulted was one in Running, leaves every other place as before the Step,
PC at the faulting instruction, and records that PC, the word (0 if the fault was in the fetch), and the cause and info
that `specFault` gives: those of R160 to R167, and for SYS under the optional parameter SYS_FAULTS those of D2, a field of
the model's choice (log 5). -/
def Obligations.FaultsArePrecise : Prop :=
  ∀ s t : State, s.mode ≠ .faulted → step s = .next t → t.mode = .faulted →
    s.mode = .running ∧ t = { s with mode := .faulted, fault := t.fault } ∧ t.fault.pc = s.pc ∧
    t.fault.word = (if s.pc.toNat > 0xFFE then 0 else s.peek s.pc.toNat ++ s.peek (s.pc.toNat + 1)) ∧
    specFault s = some t.fault

/-- In Faulted (R168, R169): Step has no effect, Tick still counts down, SetKey still changes KEY, a Load that fits still
writes memory and PC, no command but Reset leaves Faulted, Reset does, and FAULT keeps its record except under an oversize
Load. -/
def Obligations.OnlyResetLeavesFaulted : Prop :=
  ∀ s : State, s.mode = .faulted →
    step s = .next s ∧
    (∀ random, ∃ t, s.command (.step random) = .next t ∧ Unchanged s t {.randomInput}) ∧
    (∃ t, s.command .tick = .next t ∧ t.dt.toNat = s.dt.toNat - 1 ∧ t.st.toNat = s.st.toNat - 1) ∧
    (∀ k b, ∃ t, s.command (.setKey k b) = .next t ∧ t.key k = b) ∧
    (∀ bytes, bytes.length ≤ 0xE00 → ∃ t, s.command (.load bytes) = .next t ∧ t.pc = 0x200 ∧
      ∀ j (h : j < bytes.length), t.peek (0x200 + j) = bytes[j]) ∧
    (∀ c t, c ≠ .reset → s.command c = .next t → t.mode = .faulted) ∧
    (∃ t, s.command .reset = .next t ∧ t.mode = .running ∧ t.fault = ⟨.none, 0, 0, 0⟩) ∧
    (∀ c t, c ≠ .reset → (∀ bytes, c = .load bytes → bytes.length ≤ 0xE00) → s.command c = .next t → t.fault = s.fault) ∧
    (∀ bytes, bytes.length > 0xE00 → ∃ t, s.command (.load bytes) = .next t ∧ t.fault.cause = .romTooLarge)

/-! ## The invariant and whole runs -/

/-- The state right after reset meets the invariant, whatever the session's parameters. -/
def Obligations.ResetMeetsTheInvariant : Prop :=
  State.reset.Inv ∧ ∀ c : Config, (State.resetFor c).Inv

/-- Every Step keeps the invariant: memory canonical, the display of its size, SP at most 16 (R26), PC at most 0x10FE
(R25), saved addresses at most 0x1000 (R97), a fault recorded exactly in Faulted (R41). -/
def Obligations.StepKeepsTheInvariant : Prop :=
  ∀ s t : State, s.Inv → step s = .next t → t.Inv

/-- The block never stops by itself (R184): where SP is at most 16 every Step answers a next state, in every mode. -/
def Obligations.StepAlwaysAnswers : Prop :=
  ∀ s : State, s.sp.toNat ≤ 16 → ∃ t, step s = .next t

/-- Whatever commands the host issues, in whatever order (R183), from any state that meets the invariant: every one of them
answers a next state, and the state at the end meets the invariant. -/
def Obligations.EveryCommandSequenceKeepsTheInvariant : Prop :=
  ∀ (cs : List Command) (s : State), s.Inv → ∃ t, s.commands cs = .next t ∧ t.Inv

/-- Two states that no reading of any place tells apart are equal, where memory is canonical and the display has its size
(the model's own canonical form, log 8). -/
def Obligations.IndistinguishableStatesAreEqual : Prop :=
  ∀ s t : State, Memory.wf s.config s.mem = true → Memory.wf t.config t.mem = true →
    Display.shaped s.config.displayW s.config.displayH s.fb = true →
    Display.shaped t.config.displayW t.config.displayH t.fb = true →
    (∀ f, SameAt s t f) → t = s

/-- A byte stored is the byte read back, and every other address reads as before (R58, R62). That the list stays in its
canonical form is a clause about the model's own form of memory (its choice, log 8). -/
def Obligations.StoredByteReadsBack : Prop :=
  ∀ (s : State) (a : Nat) (b : Byte), a ≤ 0xFFF →
    ∃ t, s.memWrite a b = some t ∧ t.memRead a = some b ∧ (∀ a', a' ≠ a → t.memRead a' = s.memRead a') ∧
      (Memory.wf s.config s.mem = true → Memory.wf t.config t.mem = true)

/-! ## Reset, Load, Tick, SetKey -/

/-- The state right after reset: the table of R43. The host's input KEY, which the spec does not reset, is the model's
choice (log 7), and so are the parameters' defaults (log 4): this says nothing of them. -/
def Obligations.ResetStateHoldsTheTable : Prop :=
  ∀ c : Config,
    let s := State.resetFor c
    (∀ r : Reg, s.reg r = 0) ∧ s.i = 0 ∧ s.pc = 0x200 ∧ s.sp = 0 ∧ (∀ k : Reg, s.stack[k] = 0) ∧
    s.dt = 0 ∧ s.st = 0 ∧
    (∀ a, a ≤ 0xFFF → s.memRead a = some (if h : 0x50 ≤ a ∧ a ≤ 0x9F then c.font[a - 0x50] else 0)) ∧
    (∀ px py, px < c.displayW → py < c.displayH → s.pixel px py = false) ∧
    s.mode = .running ∧ s.waitReg = 0 ∧ s.fault = ⟨.none, 0, 0, 0⟩

/-- The Reset command, from every state and in every mode (R190): every piece of state to the value of R43, KEY unchanged. -/
def Obligations.ResetCommandResetsEverything : Prop :=
  ∀ s : State, ∃ t, s.command .reset = .next t ∧
    (∀ r : Reg, t.reg r = 0) ∧ t.i = 0 ∧ t.pc = 0x200 ∧ t.sp = 0 ∧ (∀ k : Reg, t.stack[k] = 0) ∧
    t.dt = 0 ∧ t.st = 0 ∧
    (∀ a, a ≤ 0xFFF → t.memRead a = some (if h : 0x50 ≤ a ∧ a ≤ 0x9F then s.config.font[a - 0x50] else 0)) ∧
    (∀ px py, px < s.config.displayW → py < s.config.displayH → t.pixel px py = false) ∧
    t.mode = .running ∧ t.waitReg = 0 ∧ t.fault = ⟨.none, 0, 0, 0⟩ ∧
    (∀ k : Reg, t.key k = s.key k) ∧ t.config = s.config

/-- Load of at most 0xE00 bytes (R194): the bytes to 0x200 upwards, PC to 0x200, nothing else. -/
def Obligations.LoadCopiesTheProgram : Prop :=
  ∀ (s : State) (bytes : List Byte), bytes.length ≤ 0xE00 →
    ∃ t, s.command (.load bytes) = .next t ∧
      (∀ j (h : j < bytes.length), t.peek (0x200 + j) = bytes[j]) ∧ t.pc = 0x200 ∧
      Unchanged s t ({.pc} ∪ memPlaces 0x200 bytes.length)

/-- Load of more than 0xE00 bytes (R166, R195): RomTooLarge with the length saturated at 0xFFFF, nothing written, PC
unchanged. -/
def Obligations.OversizeLoadFaults : Prop :=
  ∀ (s : State) (bytes : List Byte), bytes.length > 0xE00 →
    ∃ t, s.command (.load bytes) = .next t ∧ t.mode = .faulted ∧ t.fault.cause = .romTooLarge ∧
      t.fault.cause.code = 6 ∧ t.fault.pc = 0x200 ∧ t.fault.word = 0 ∧
      t.fault.info.toNat = min bytes.length 0xFFFF ∧ Unchanged s t {.mode, .fault}

/-- Tick in every mode (R174): both timers one lower, floored at 0, nothing else. -/
def Obligations.TickCountsDownToZero : Prop :=
  ∀ s : State, ∃ t, s.command .tick = .next t ∧ t.dt.toNat = s.dt.toNat - 1 ∧ t.st.toNat = s.st.toNat - 1 ∧
    Unchanged s t {.dt, .st}

/-- SetKey changes that key only, and the next SKP, SKNP or key-wait poll sees it (R182). -/
def Obligations.SetKeyChangesOnlyThatKey : Prop :=
  ∀ (s : State) (k : Reg) (b : Bool), ∃ t, s.command (.setKey k b) = .next t ∧ t.key k = b ∧ Unchanged s t {.key k} ∧
    (∀ x : Reg, (t.reg x).toNat = k.val →
      (∃ u, exec (.skp x) t = .next u ∧ u.pc = (if b then t.pc + 4 else t.pc + 2)) ∧
      (∃ u, exec (.sknp x) t = .next u ∧ u.pc = (if b then t.pc + 2 else t.pc + 4))) ∧
    (t.mode = .awaitingKey → b = true → ∃ u, step t = .next u ∧ u.mode = .running)

/-! ## Control flow (40_control_flow.md) -/

/-- SYS does nothing but advance PC (R93), for the parameter's default; every word 0nnn but the two of CLS and RET is
SYS. -/
def Obligations.SysIsANoOp : Prop :=
  ∀ (nnn : Addr) (s : State), s.config.sysFaults = false →
    (∃ t, exec (.sys nnn) s = .next t ∧ t.pc = s.pc + 2 ∧ Unchanged s t {.pc}) ∧
    (nnn ≠ 0x0E0 → nnn ≠ 0x0EE → Encoded (.sys nnn) 0xF000 0x0000)

/-- Under the optional parameter SYS_FAULTS, SYS takes DecodeFailure instead (D2; log 5). -/
def Obligations.SysFaultsUnderItsParameter : Prop :=
  ∀ (nnn : Addr) (s : State), s.config.sysFaults = true →
    ∃ t, exec (.sys nnn) s = .next t ∧ t.mode = .faulted ∧ t.fault = ⟨.decodeFailure, s.pc, 0x0#4 ++ nnn, 0⟩ ∧
      Unchanged s t {.mode, .fault}

/-- JP (R94) and JP V0 (R95): PC is nnn, or the exact sum of nnn and V0, not masked to 12 bits. -/
def Obligations.JumpsSetThePc : Prop :=
  ∀ (nnn : Addr) (s : State),
    (∃ t, exec (.jp nnn) s = .next t ∧ t.pc.toNat = nnn.toNat ∧ Unchanged s t {.pc}) ∧
    (∃ t, exec (.jpV0 nnn) s = .next t ∧ t.pc.toNat = nnn.toNat + (s.reg 0).toNat ∧ Unchanged s t {.pc}) ∧
    Encoded (.jp nnn) 0xF000 0x1000 ∧ Encoded (.jpV0 nnn) 0xF000 0xB000

/-- CALL (R96): with a free slot it saves the address after itself in STACK[SP], increments SP and jumps; with SP = 16 it
takes StackOverflow with info 16 and changes nothing else. -/
def Obligations.CallPushesAndJumps : Prop :=
  ∀ (nnn : Addr) (s : State),
    (∀ h : s.sp.toNat < 16, ∃ t, exec (.call nnn) s = .next t ∧ t.stack[s.sp.toNat] = s.pc + 2 ∧
      t.sp.toNat = s.sp.toNat + 1 ∧ t.pc.toNat = nnn.toNat ∧
      Unchanged s t {.pc, .sp, .slot ⟨s.sp.toNat, h⟩}) ∧
    (s.sp.toNat = 16 → ∃ t, exec (.call nnn) s = .next t ∧ t.mode = .faulted ∧
      t.fault = ⟨.stackOverflow, s.pc, 0x2#4 ++ nnn, 16⟩ ∧ Unchanged s t {.mode, .fault}) ∧
    Encoded (.call nnn) 0xF000 0x2000

/-- RET (R97): with something pushed it decrements SP and jumps to STACK[SP], which keeps its value; with SP = 0 it takes
StackUnderflow and changes nothing else. -/
def Obligations.ReturnPopsThePc : Prop :=
  ∀ s : State,
    (∀ (_ : 0 < s.sp.toNat) (_ : s.sp.toNat ≤ 16), ∃ t, exec .ret s = .next t ∧ t.sp.toNat = s.sp.toNat - 1 ∧
      t.pc = s.stack[s.sp.toNat - 1] ∧ Unchanged s t {.pc, .sp}) ∧
    (s.sp.toNat = 0 → ∃ t, exec .ret s = .next t ∧ t.mode = .faulted ∧
      t.fault = ⟨.stackUnderflow, s.pc, 0x00EE, 0⟩ ∧ Unchanged s t {.mode, .fault}) ∧
    Encoded .ret 0xFFFF 0x00EE

/-- Beyond 16 slots there is no stack: in states with SP > 16, which no run reaches, CALL and RET stop (the model's own
fault, log 2). -/
def Obligations.NoStackBeyondSixteenSlots : Prop :=
  ∀ (nnn : Addr) (s : State), s.sp.toNat > 16 →
    exec (.call nnn) s = .fault .stackSlotAbsent ∧ exec .ret s = .fault .stackSlotAbsent

/-- A subroutine returns to the instruction after its CALL: whatever the body did, if it left SP and the stack as the CALL
did, RET resumes there and SP is as before the CALL (R96, R97). -/
def Obligations.ReturnGoesBackToTheCaller : Prop :=
  ∀ (nnn : Addr) (s t body : State), s.sp.toNat < 16 → exec (.call nnn) s = .next t →
    body.sp = t.sp → body.stack = t.stack →
      ∃ u, exec .ret body = .next u ∧ u.pc = s.pc + 2 ∧ u.sp = s.sp

/-- The skips (R98 to R102): PC two further when the comparison holds, whatever word follows; nothing else changes. -/
def Obligations.ComparisonSkips : Prop :=
  ∀ (x y : Reg) (kk : Byte) (s : State),
    (∃ t, exec (.seImm x kk) s = .next t ∧ t.pc = (if s.reg x = kk then s.pc + 4 else s.pc + 2) ∧ Unchanged s t {.pc}) ∧
    (∃ t, exec (.sneImm x kk) s = .next t ∧ t.pc = (if s.reg x = kk then s.pc + 2 else s.pc + 4) ∧ Unchanged s t {.pc}) ∧
    (∃ t, exec (.seReg x y) s = .next t ∧ t.pc = (if s.reg x = s.reg y then s.pc + 4 else s.pc + 2) ∧
      Unchanged s t {.pc}) ∧
    (∃ t, exec (.sneReg x y) s = .next t ∧ t.pc = (if s.reg x = s.reg y then s.pc + 2 else s.pc + 4) ∧
      Unchanged s t {.pc}) ∧
    Encoded (.seImm x kk) 0xF000 0x3000 ∧ Encoded (.sneImm x kk) 0xF000 0x4000 ∧
    Encoded (.seReg x y) 0xF00F 0x5000 ∧ Encoded (.sneReg x y) 0xF00F 0x9000

/-! ## Registers and arithmetic (41_register_arith.md) -/

/-- LD Vx,kk, ADD Vx,kk and LD Vx,Vy (R112, R113, R114): the result, no flag. -/
def Obligations.LoadsAndAddImmediate : Prop :=
  ∀ (x y : Reg) (kk : Byte) (s : State),
    (∃ t, exec (.ldImm x kk) s = .next t ∧ t.reg x = kk ∧ t.pc = s.pc + 2 ∧ Unchanged s t {.pc, .v x}) ∧
    (∃ t, exec (.addImm x kk) s = .next t ∧ (t.reg x).toNat = ((s.reg x).toNat + kk.toNat) % 256 ∧
      t.pc = s.pc + 2 ∧ Unchanged s t {.pc, .v x}) ∧
    (∃ t, exec (.ldReg x y) s = .next t ∧ t.reg x = s.reg y ∧ t.pc = s.pc + 2 ∧ Unchanged s t {.pc, .v x}) ∧
    Encoded (.ldImm x kk) 0xF000 0x6000 ∧ Encoded (.addImm x kk) 0xF000 0x7000 ∧ Encoded (.ldReg x y) 0xF00F 0x8000

/-- OR, AND, XOR (R115, R116, R117): bit by bit, no flag. -/
def Obligations.LogicBitByBit : Prop :=
  ∀ (x y : Reg) (s : State),
    (∃ t, exec (.orReg x y) s = .next t ∧
      (∀ k, (t.reg x).getLsbD k = ((s.reg x).getLsbD k || (s.reg y).getLsbD k)) ∧
      t.pc = s.pc + 2 ∧ Unchanged s t {.pc, .v x}) ∧
    (∃ t, exec (.andReg x y) s = .next t ∧
      (∀ k, (t.reg x).getLsbD k = ((s.reg x).getLsbD k && (s.reg y).getLsbD k)) ∧
      t.pc = s.pc + 2 ∧ Unchanged s t {.pc, .v x}) ∧
    (∃ t, exec (.xorReg x y) s = .next t ∧
      (∀ k, (t.reg x).getLsbD k = xor ((s.reg x).getLsbD k) ((s.reg y).getLsbD k)) ∧
      t.pc = s.pc + 2 ∧ Unchanged s t {.pc, .v x}) ∧
    Encoded (.orReg x y) 0xF00F 0x8001 ∧ Encoded (.andReg x y) 0xF00F 0x8002 ∧ Encoded (.xorReg x y) 0xF00F 0x8003

/-- ADD Vx,Vy (R118): the sum mod 256, then VF the carry, which VF holds when x = 15. -/
def Obligations.AddSetsTheCarry : Prop :=
  ∀ (x y : Reg) (s : State),
    (∃ t, exec (.addReg x y) s = .next t ∧
      (x ≠ 15 → (t.reg x).toNat = ((s.reg x).toNat + (s.reg y).toNat) % 256) ∧
      (t.reg 15).toNat = (if (s.reg x).toNat + (s.reg y).toNat > 255 then 1 else 0) ∧
      t.pc = s.pc + 2 ∧ Unchanged s t {.pc, .v x, .v 15}) ∧
    Encoded (.addReg x y) 0xF00F 0x8004

/-- SUB (R119) and SUBN (R121): the exact difference mod 256, then VF 1 where nothing was borrowed. -/
def Obligations.SubtractionsSetNoBorrow : Prop :=
  ∀ (x y : Reg) (s : State),
    (∃ t, exec (.sub x y) s = .next t ∧
      (x ≠ 15 → ((t.reg x).toNat : Int) = ((s.reg x).toNat - (s.reg y).toNat : Int) % 256) ∧
      (t.reg 15).toNat = (if (s.reg x).toNat ≥ (s.reg y).toNat then 1 else 0) ∧
      t.pc = s.pc + 2 ∧ Unchanged s t {.pc, .v x, .v 15}) ∧
    (∃ t, exec (.subn x y) s = .next t ∧
      (x ≠ 15 → ((t.reg x).toNat : Int) = ((s.reg y).toNat - (s.reg x).toNat : Int) % 256) ∧
      (t.reg 15).toNat = (if (s.reg y).toNat ≥ (s.reg x).toNat then 1 else 0) ∧
      t.pc = s.pc + 2 ∧ Unchanged s t {.pc, .v x, .v 15}) ∧
    Encoded (.sub x y) 0xF00F 0x8005 ∧ Encoded (.subn x y) 0xF00F 0x8007

/-- SHR (R120) and SHL (R122): V[x] halved, or doubled mod 256, in place; VF the bit shifted out, whatever it is; y plays
no part. -/
def Obligations.ShiftsMoveOneBitOut : Prop :=
  ∀ (x y : Reg) (s : State),
    (∃ t, exec (.shr x y) s = .next t ∧
      (x ≠ 15 → (t.reg x).toNat = (s.reg x).toNat / 2) ∧ (t.reg 15).toNat = (s.reg x).toNat % 2 ∧
      t.pc = s.pc + 2 ∧ Unchanged s t {.pc, .v x, .v 15}) ∧
    (∃ t, exec (.shl x y) s = .next t ∧
      (x ≠ 15 → (t.reg x).toNat = (s.reg x).toNat * 2 % 256) ∧ (t.reg 15).toNat = (s.reg x).toNat / 128 ∧
      t.pc = s.pc + 2 ∧ Unchanged s t {.pc, .v x, .v 15}) ∧
    (∀ y' : Reg, exec (.shr x y') s = exec (.shr x y) s ∧ exec (.shl x y') s = exec (.shl x y) s) ∧
    Encoded (.shr x y) 0xF00F 0x8006 ∧ Encoded (.shl x y) 0xF00F 0x800E

/-- RND (R123) with a byte in the random-byte input, which is how the Step command runs it (R181): takes exactly that byte
and stores it masked. The list of supplied bytes and the count of those taken, which say here what 'taken' is, are the
model's own form of the input (log 6); the empty list is `Obligations.RndWithoutASuppliedByte`. -/
def Obligations.RndTakesOneByte : Prop :=
  ∀ (x : Reg) (kk r : Byte) (rest : List Byte) (s : State), s.randomInput = r :: rest →
    (∃ t, exec (.rnd x kk) s = .next t ∧ t.reg x = r &&& kk ∧ t.randomInput = rest ∧
      t.randomTaken = s.randomTaken + 1 ∧ t.pc = s.pc + 2 ∧
      Unchanged s t {.pc, .v x, .randomInput, .randomTaken}) ∧
    Encoded (.rnd x kk) 0xF000 0xC000

/-- Where the host has supplied no byte, RND stores the free value of this draw, masked: any byte, nothing is known of it
(the model's choice, log 6). -/
def Obligations.RndWithoutASuppliedByte : Prop :=
  ∀ (x : Reg) (kk : Byte) (s : State), s.randomInput = [] →
    ∃ t, exec (.rnd x kk) s = .next t ∧ t.reg x = Config.randomByte s.randomTaken &&& kk ∧
      t.randomTaken = s.randomTaken + 1 ∧ t.pc = s.pc + 2 ∧ Unchanged s t {.pc, .v x, .randomTaken}

/-! ## Address register, memory, timers (42_memory_timer_key.md) -/

/-- LD I,nnn (R130) and ADD I,Vx (R131): I is nnn, or the sum mod 2^16, with no clamping and no flag. -/
def Obligations.AddressRegisterLoads : Prop :=
  ∀ (nnn : Addr) (x : Reg) (s : State),
    (∃ t, exec (.ldI nnn) s = .next t ∧ t.i.toNat = nnn.toNat ∧ t.pc = s.pc + 2 ∧ Unchanged s t {.pc, .i}) ∧
    (∃ t, exec (.addI x) s = .next t ∧ t.i.toNat = (s.i.toNat + (s.reg x).toNat) % 65536 ∧ t.pc = s.pc + 2 ∧
      Unchanged s t {.pc, .i}) ∧
    Encoded (.ldI nnn) 0xF000 0xA000 ∧ Encoded (.addI x) 0xF0FF 0xF01E

/-- LD F,Vx (R132): I is 0x050 + 5 V[x], whatever V[x] is, not masked; for the parameter's default. -/
def Obligations.GlyphAddressOfADigit : Prop :=
  ∀ (x : Reg) (s : State), s.config.fontDigitMask = false →
    (∃ t, exec (.ldF x) s = .next t ∧ t.i.toNat = 0x050 + 5 * (s.reg x).toNat ∧ t.pc = s.pc + 2 ∧
      Unchanged s t {.pc, .i}) ∧
    Encoded (.ldF x) 0xF0FF 0xF029

/-- Under the optional parameter FONT_DIGIT_MASK, LD F,Vx takes the digit V[x] mod 16 (D16; log 5). -/
def Obligations.GlyphAddressUnderItsParameter : Prop :=
  ∀ (x : Reg) (s : State), s.config.fontDigitMask = true →
    ∃ t, exec (.ldF x) s = .next t ∧ t.i.toNat = 0x050 + 5 * ((s.reg x).toNat % 16) ∧ t.pc = s.pc + 2 ∧
      Unchanged s t {.pc, .i}

/-- LD B,Vx (R133): hundreds, tens and units to I, I+1, I+2; if one of the three is above 0xFFF, MemoryOutOfBounds and
nothing is written. -/
def Obligations.DecimalDigitsStored : Prop :=
  ∀ (x : Reg) (s : State),
    (s.i.toNat + 2 ≤ 0xFFF → ∃ t, exec (.ldB x) s = .next t ∧
      (t.peek s.i.toNat).toNat = (s.reg x).toNat / 100 ∧
      (t.peek (s.i.toNat + 1)).toNat = (s.reg x).toNat / 10 % 10 ∧
      (t.peek (s.i.toNat + 2)).toNat = (s.reg x).toNat % 10 ∧
      t.pc = s.pc + 2 ∧ Unchanged s t ({.pc} ∪ memPlaces s.i.toNat 3)) ∧
    (s.i.toNat + 2 > 0xFFF → ∃ t, exec (.ldB x) s = .next t ∧ t.mode = .faulted ∧
      t.fault = ⟨.memoryOutOfBounds, s.pc, encode (.ldB x), BitVec.ofNat 16 (max s.i.toNat 0x1000)⟩ ∧
      Unchanged s t {.mode, .fault}) ∧
    Encoded (.ldB x) 0xF0FF 0xF033

/-- LD [I],Vx (R134): V[0]..V[x] to I..I+x, I unchanged; if one address is above 0xFFF, MemoryOutOfBounds and nothing is
written. -/
def Obligations.RegistersStored : Prop :=
  ∀ (x : Reg) (s : State),
    (s.i.toNat + x.val ≤ 0xFFF → ∃ t, exec (.ldMemV x) s = .next t ∧
      (∀ r : Reg, r ≤ x → t.peek (s.i.toNat + r.val) = s.reg r) ∧
      t.pc = s.pc + 2 ∧ Unchanged s t ({.pc} ∪ memPlaces s.i.toNat (x.val + 1))) ∧
    (s.i.toNat + x.val > 0xFFF → ∃ t, exec (.ldMemV x) s = .next t ∧ t.mode = .faulted ∧
      t.fault = ⟨.memoryOutOfBounds, s.pc, encode (.ldMemV x), BitVec.ofNat 16 (max s.i.toNat 0x1000)⟩ ∧
      Unchanged s t {.mode, .fault}) ∧
    Encoded (.ldMemV x) 0xF0FF 0xF055

/-- LD Vx,[I] (R135): the bytes at I..I+x to V[0]..V[x], I unchanged; if one address is above 0xFFF, MemoryOutOfBounds and
no register is written. -/
def Obligations.RegistersLoaded : Prop :=
  ∀ (x : Reg) (s : State),
    (s.i.toNat + x.val ≤ 0xFFF → ∃ t, exec (.ldVMem x) s = .next t ∧
      (∀ r : Reg, r ≤ x → t.reg r = s.peek (s.i.toNat + r.val)) ∧
      t.pc = s.pc + 2 ∧ Unchanged s t ({.pc} ∪ regsUpTo x)) ∧
    (s.i.toNat + x.val > 0xFFF → ∃ t, exec (.ldVMem x) s = .next t ∧ t.mode = .faulted ∧
      t.fault = ⟨.memoryOutOfBounds, s.pc, encode (.ldVMem x), BitVec.ofNat 16 (max s.i.toNat 0x1000)⟩ ∧
      Unchanged s t {.mode, .fault}) ∧
    Encoded (.ldVMem x) 0xF0FF 0xF065

/-- The timer instructions (R136, R137, R138). -/
def Obligations.TimerRegisterMoves : Prop :=
  ∀ (x : Reg) (s : State),
    (∃ t, exec (.ldVDt x) s = .next t ∧ t.reg x = s.dt ∧ t.pc = s.pc + 2 ∧ Unchanged s t {.pc, .v x}) ∧
    (∃ t, exec (.ldDtV x) s = .next t ∧ t.dt = s.reg x ∧ t.pc = s.pc + 2 ∧ Unchanged s t {.pc, .dt}) ∧
    (∃ t, exec (.ldStV x) s = .next t ∧ t.st = s.reg x ∧ t.pc = s.pc + 2 ∧ Unchanged s t {.pc, .st}) ∧
    Encoded (.ldVDt x) 0xF0FF 0xF007 ∧ Encoded (.ldDtV x) 0xF0FF 0xF015 ∧ Encoded (.ldStV x) 0xF0FF 0xF018

/-- A program that LD [I],Vx writes is the program that is fetched from there (R65): with PC at two stored bytes, the word
fetched is made of the two registers stored there. -/
def Obligations.StoredCodeIsFetched : Prop :=
  ∀ (x k k' : Reg) (s t : State), s.i.toNat + x.val ≤ 0xFFF → exec (.ldMemV x) s = .next t →
    k'.val = k.val + 1 → k' ≤ x → t.mode = .running →
    ∀ i : Instr, decode (s.reg k ++ s.reg k') = .ok i →
      let at' : State := { t with pc := BitVec.ofNat 16 (s.i.toNat + k.val) }
      step at' = exec i at'

/-! ## Keys -/

/-- SKP (R139) and SKNP (R140): skip by the state of the key V[x] names; InvalidKey with that value, and nothing else
changed, where it names none. -/
def Obligations.KeySkips : Prop :=
  ∀ (x : Reg) (s : State),
    (∀ k : Reg, (s.reg x).toNat = k.val →
      (∃ t, exec (.skp x) s = .next t ∧ t.pc = (if s.key k then s.pc + 4 else s.pc + 2) ∧ Unchanged s t {.pc}) ∧
      (∃ t, exec (.sknp x) s = .next t ∧ t.pc = (if s.key k then s.pc + 2 else s.pc + 4) ∧ Unchanged s t {.pc})) ∧
    ((s.reg x).toNat > 0xF →
      (∃ t, exec (.skp x) s = .next t ∧ t.mode = .faulted ∧
        t.fault = ⟨.invalidKey, s.pc, encode (.skp x), (s.reg x).setWidth 16⟩ ∧ Unchanged s t {.mode, .fault}) ∧
      (∃ t, exec (.sknp x) s = .next t ∧ t.mode = .faulted ∧
        t.fault = ⟨.invalidKey, s.pc, encode (.sknp x), (s.reg x).setWidth 16⟩ ∧ Unchanged s t {.mode, .fault})) ∧
    Encoded (.skp x) 0xF0FF 0xE09E ∧ Encoded (.sknp x) 0xF0FF 0xE0A1

/-- LD Vx,K (R141): AwaitingKey(x) with PC past the instruction, whatever the keys; no register is written. -/
def Obligations.WaitForKeyEntersAwaitingKey : Prop :=
  ∀ (x : Reg) (s : State),
    (∃ t, exec (.ldVK x) s = .next t ∧ t.mode = .awaitingKey ∧ t.waitReg = x ∧ t.pc = s.pc + 2 ∧
      Unchanged s t {.pc, .mode, .waitReg}) ∧
    Encoded (.ldVK x) 0xF0FF 0xF00A

/-- What ends a key wait: a command after which the mode is no longer AwaitingKey is a Step that found a key pressed, a
Reset, or an oversize Load, which faults (R142, R166, R180). -/
def Obligations.KeyWaitEndsOnlyByKeyOrReset : Prop :=
  ∀ (s t : State) (c : Command), s.mode = .awaitingKey → s.command c = .next t → t.mode ≠ .awaitingKey →
    c = .reset ∨ (∃ random, c = .step random ∧ (∃ k : Reg, s.key k = true) ∧ t.mode = .running) ∨
      (∃ bytes, c = .load bytes ∧ bytes.length > 0xE00 ∧ t.mode = .faulted)

/-! ## Display (43_display.md) -/

/-- CLS (R150): every pixel of the display unlit, nothing else changed, VF neither. -/
def Obligations.ClearScreen : Prop :=
  ∀ s : State,
    (∃ t, exec .cls s = .next t ∧ (∀ px py, onDisplay s px py → t.pixel px py = false) ∧ t.pc = s.pc + 2 ∧
      Unchanged s t ({.pc} ∪ { f | ∃ px py, f = .pixel px py })) ∧
    Encoded .cls 0xFFFF 0x00E0

/-- DRW (R151 to R155): with every sprite byte inside memory (or none to read), each pixel of the display is XORed with the
sprite's bit there, pixels outside are dropped, VF is 1 exactly if a 1 bit fell on a lit pixel of the display, and nothing
else changes; otherwise MemoryOutOfBounds and nothing else changes. The operands are those before the draw, VF among them. -/
def Obligations.DrawXorsTheSprite : Prop :=
  ∀ (x y : Reg) (n : Nibble) (s : State),
    Display.shaped s.config.displayW s.config.displayH s.fb = true →
    let covers := spriteCovers s s.i.toNat (s.reg x).toNat (s.reg y).toNat n.toNat
    ((n.toNat = 0 ∨ s.i.toNat + n.toNat - 1 ≤ 0xFFF) → ∃ t, exec (.drw x y n) s = .next t ∧
      (∀ px py, onDisplay s px py → t.pixel px py = xor (s.pixel px py) (covers px py)) ∧
      ((∃ px py, onDisplay s px py ∧ covers px py = true ∧ s.pixel px py = true) → t.reg 15 = 1) ∧
      ((¬ ∃ px py, onDisplay s px py ∧ covers px py = true ∧ s.pixel px py = true) → t.reg 15 = 0) ∧
      t.pc = s.pc + 2 ∧
      Unchanged s t ({.pc, .v 15} ∪ spritePlaces s s.i.toNat (s.reg x).toNat (s.reg y).toNat n.toNat)) ∧
    ((n.toNat > 0 ∧ s.i.toNat + n.toNat - 1 > 0xFFF) → ∃ t, exec (.drw x y n) s = .next t ∧ t.mode = .faulted ∧
      t.fault = ⟨.memoryOutOfBounds, s.pc, encode (.drw x y n), BitVec.ofNat 16 (max s.i.toNat 0x1000)⟩ ∧
      Unchanged s t {.mode, .fault}) ∧
    Encoded (.drw x y n) 0xF000 0xD000

/-- Drawing the same sprite at the same origin twice, with FB, I and the sprite bytes unchanged between, restores every
pixel; and where the sprite has a 1 bit on the display and the places it covers were unlit, the first draw leaves VF 0 and
the second VF 1 (R156). -/
def Obligations.DoubleDrawRestores : Prop :=
  ∀ (x y : Reg) (n : Nibble) (s t between : State),
    Display.shaped s.config.displayW s.config.displayH s.fb = true →
    (n.toNat = 0 ∨ s.i.toNat + n.toNat - 1 ≤ 0xFFF) →
    exec (.drw x y n) s = .next t →
    between.fb = t.fb → between.i = t.i → between.config = t.config →
    between.reg x = s.reg x → between.reg y = s.reg y →
    (∀ k, k < n.toNat → between.peek (s.i.toNat + k) = s.peek (s.i.toNat + k)) →
    let covers := spriteCovers s s.i.toNat (s.reg x).toNat (s.reg y).toNat n.toNat
    ∃ u, exec (.drw x y n) between = .next u ∧
      (∀ px py, onDisplay s px py → u.pixel px py = s.pixel px py) ∧
      ((∃ px py, onDisplay s px py ∧ covers px py = true) →
       (∀ px py, onDisplay s px py → covers px py = true → s.pixel px py = false) →
        t.reg 15 = 0 ∧ u.reg 15 = 1)

/-! ## Rules about all instructions at once -/

/-- R22: an instruction changes a V register only if it is listed as writing it: V[x] of the listed instructions,
V[0]..V[x] of LD Vx,[I], and VF of the six that write the flag. -/
def writesReg (r : Reg) : Instr → Prop
  | .ldImm x _ | .addImm x _ | .rnd x _ | .ldVDt x => r = x
  | .ldReg x _ | .orReg x _ | .andReg x _ | .xorReg x _ => r = x
  | .addReg x _ | .sub x _ | .shr x _ | .subn x _ | .shl x _ => r = x ∨ r = 15
  | .drw _ _ _ => r = 15
  | .ldVMem x => r ≤ x
  | _ => False

/-- R22, R31: every other instruction leaves all of V unchanged; and a Step in AwaitingKey changes only the awaited
register. -/
def Obligations.OnlyListedInstructionsWriteV : Prop :=
  (∀ (i : Instr) (s t : State) (r : Reg), exec i s = .next t → t.reg r ≠ s.reg r → writesReg r i) ∧
  (∀ (s t : State) (r : Reg), s.mode = .awaitingKey → step s = .next t → t.reg r ≠ s.reg r → r = s.waitReg)

/-- R59: memory is written by LD B,Vx, LD [I],Vx and the Load command only (and set by Reset). -/
def Obligations.MemoryWrittenOnlyByStoresAndLoad : Prop :=
  (∀ (i : Instr) (s t : State) (a : Nat), exec i s = .next t → t.peek a ≠ s.peek a →
    (∃ x, i = .ldB x) ∨ (∃ x, i = .ldMemV x)) ∧
  (∀ (c : Command) (s t : State) (a : Nat), s.command c = .next t → t.peek a ≠ s.peek a →
    c = .reset ∨ (∃ bytes, c = .load bytes) ∨ (∃ random, c = .step random ∧ s.mode = .running))

/-- R38, R157: the display is written by CLS and DRW only. -/
def Obligations.DisplayWrittenOnlyByClsAndDrw : Prop :=
  ∀ (i : Instr) (s t : State), exec i s = .next t → t.fb ≠ s.fb → i = .cls ∨ ∃ x y n, i = .drw x y n

/-- R24, R27, R26, R32, R33, R123, R44, R8, R10: who writes I, the stack and SP, DT, ST and the random-byte input; nobody
writes KEY or the parameters; an instruction changes MODE only by LD Vx,K and by a fault. That no instruction but LD Vx,K
(R141) writes WAIT_REG, outside AwaitingKey too, is the model's reading (log 9), and the random-byte input stands in the
model's own two fields (log 6). -/
def Obligations.OtherStateHasItsOwnWriters : Prop :=
  ∀ (i : Instr) (s t : State), exec i s = .next t →
    (t.i ≠ s.i → (∃ nnn, i = .ldI nnn) ∨ (∃ x, i = .addI x) ∨ (∃ x, i = .ldF x)) ∧
    (t.stack ≠ s.stack → ∃ nnn, i = .call nnn) ∧
    (t.sp ≠ s.sp → (∃ nnn, i = .call nnn) ∨ i = .ret) ∧
    (t.dt ≠ s.dt → ∃ x, i = .ldDtV x) ∧
    (t.st ≠ s.st → ∃ x, i = .ldStV x) ∧
    (t.waitReg ≠ s.waitReg → ∃ x, i = .ldVK x) ∧
    (t.randomInput ≠ s.randomInput ∨ t.randomTaken ≠ s.randomTaken → ∃ x kk, i = .rnd x kk) ∧
    (t.mode ≠ s.mode → (∃ x, i = .ldVK x) ∨ t.mode = .faulted) ∧
    t.keys = s.keys ∧ t.config = s.config

/-- R50: only SKP, SKNP and the key-wait poll reach KEY: every other instruction does the same whatever the keys are. -/
def Obligations.OtherInstructionsIgnoreTheKeys : Prop :=
  ∀ (i : Instr) (s : State) (keys : Vector Bool 16), (∀ x, i ≠ .skp x) → (∀ x, i ≠ .sknp x) →
    exec i { s with keys := keys } = mapNext (fun t => { t with keys := keys }) (exec i s)

/-- R33: no instruction reads ST: whatever ST is, an instruction does the same, and what it leaves of ST is what it was,
unless the instruction is LD ST,Vx. -/
def Obligations.NoInstructionReadsSt : Prop :=
  ∀ (i : Instr) (s : State) (b : Byte),
    ((∀ x, i ≠ .ldStV x) → exec i { s with st := b } = mapNext (fun t => { t with st := b }) (exec i s)) ∧
    ((∃ x, i = .ldStV x) → exec i { s with st := b } = exec i s)

/-- A Tick before an instruction or after it comes to the same, for every instruction that does not name a timer: Tick
touches DT and ST only (R174), and no other instruction reads or writes them (R32, R33). -/
def Obligations.TickCommutesWithInstructions : Prop :=
  ∀ (i : Instr) (s : State), (∀ x, i ≠ .ldVDt x) → (∀ x, i ≠ .ldDtV x) → (∀ x, i ≠ .ldStV x) →
    exec i s.tick = mapNext State.tick (exec i s)
end

