-- ==== Sys2Proof/Laws/Decode.lean ====
section
/-! SUPPORT. Laws of the word formats: the fields and nibbles of an encoded word (R12, R72), and what the masks of the
opcode table leave of it (R75). -/

namespace Sys2Proof

/-! ## F_NNN -/

@[simp] theorem nibble3_encodeNNN (a : Nibble) (nnn : Addr) : nibble (encodeNNN a nnn) 3 = a := by
  apply BitVec.eq_of_getLsbD_eq
  intro j hj
  simp only [nibble, encodeNNN, BitVec.getLsbD_extractLsb', BitVec.getLsbD_append, hj, decide_true, Bool.true_and]
  rw [if_neg (by omega)]
  congr 1
  omega

@[simp] theorem fieldNNN_encodeNNN (a : Nibble) (nnn : Addr) : fieldNNN (encodeNNN a nnn) = nnn := by
  apply BitVec.eq_of_getLsbD_eq
  intro j hj
  simp only [fieldNNN, encodeNNN, BitVec.getLsbD_extractLsb', BitVec.getLsbD_append, hj, decide_true, Bool.true_and]
  rw [if_pos (by omega)]
  congr 1
  omega

theorem encodeNNN_mask (a : Nibble) (nnn : Addr) : encodeNNN a nnn &&& 0xF000 = a ++ 0#12 := by
  rw [encodeNNN, show (0xF000 : Word) = (0xF#4 ++ 0#12) from rfl, BitVec.and_append]
  congr 1
  · exact BitVec.and_allOnes
  · exact BitVec.and_zero

/-! ## F_XKK -/

@[simp] theorem nibble3_encodeXKK (a : Nibble) (x : Reg) (kk : Byte) : nibble (encodeXKK a x kk) 3 = a := by
  apply BitVec.eq_of_getLsbD_eq
  intro j hj
  simp only [nibble, encodeXKK, BitVec.getLsbD_extractLsb', BitVec.getLsbD_append, hj, decide_true, Bool.true_and]
  rw [if_neg (by omega), if_neg (by omega)]
  congr 1
  omega

@[simp] theorem fieldX_encodeXKK (a : Nibble) (x : Reg) (kk : Byte) : fieldX (encodeXKK a x kk) = x := by
  have h : nibble (encodeXKK a x kk) 2 = regField x := by
    apply BitVec.eq_of_getLsbD_eq
    intro j hj
    simp only [nibble, encodeXKK, BitVec.getLsbD_extractLsb', BitVec.getLsbD_append, hj, decide_true, Bool.true_and]
    rw [if_neg (by omega), if_pos (by omega)]
    congr 1
    omega
  rw [fieldX, h]
  rfl

@[simp] theorem fieldKK_encodeXKK (a : Nibble) (x : Reg) (kk : Byte) : fieldKK (encodeXKK a x kk) = kk := by
  apply BitVec.eq_of_getLsbD_eq
  intro j hj
  simp only [fieldKK, encodeXKK, BitVec.getLsbD_extractLsb', BitVec.getLsbD_append, hj, decide_true, Bool.true_and]
  rw [if_pos (by omega)]
  congr 1
  omega

@[simp] theorem nibble1_encodeXKK (a : Nibble) (x : Reg) (kk : Byte) :
    nibble (encodeXKK a x kk) 1 = kk.extractLsb' 4 4 := by
  apply BitVec.eq_of_getLsbD_eq
  intro j hj
  simp only [nibble, encodeXKK, BitVec.getLsbD_extractLsb', BitVec.getLsbD_append, hj, decide_true, Bool.true_and]
  rw [if_pos (by omega)]

@[simp] theorem nibble0_encodeXKK (a : Nibble) (x : Reg) (kk : Byte) :
    nibble (encodeXKK a x kk) 0 = kk.extractLsb' 0 4 := by
  apply BitVec.eq_of_getLsbD_eq
  intro j hj
  simp only [nibble, encodeXKK, BitVec.getLsbD_extractLsb', BitVec.getLsbD_append, hj, decide_true, Bool.true_and]
  rw [if_pos (by omega)]

theorem encodeXKK_mask (a : Nibble) (x : Reg) (kk : Byte) : encodeXKK a x kk &&& 0xF000 = a ++ 0#4 ++ 0#8 := by
  rw [encodeXKK, show (0xF000 : Word) = (0xF#4 ++ 0#4 ++ 0#8) from rfl, BitVec.and_append, BitVec.and_append]
  congr 1
  · congr 1
    · exact BitVec.and_allOnes
    · exact BitVec.and_zero
  · exact BitVec.and_zero

/-- F_X: both ends of the word are literal. -/
theorem encodeXKK_mask_ends (a : Nibble) (x : Reg) (kk : Byte) : encodeXKK a x kk &&& 0xF0FF = a ++ 0#4 ++ kk := by
  rw [encodeXKK, show (0xF0FF : Word) = (0xF#4 ++ 0#4 ++ 0xFF#8) from rfl, BitVec.and_append, BitVec.and_append]
  congr 1
  · congr 1
    · exact BitVec.and_allOnes
    · exact BitVec.and_zero
  · exact BitVec.and_allOnes

/-! ## F_XY and F_XYN -/

@[simp] theorem nibble3_encodeXYN (a : Nibble) (x y : Reg) (n : Nibble) : nibble (encodeXYN a x y n) 3 = a := by
  apply BitVec.eq_of_getLsbD_eq
  intro j hj
  simp only [nibble, encodeXYN, BitVec.getLsbD_extractLsb', BitVec.getLsbD_append, hj, decide_true, Bool.true_and]
  rw [if_neg (by omega), if_neg (by omega), if_neg (by omega)]
  congr 1
  omega

@[simp] theorem fieldX_encodeXYN (a : Nibble) (x y : Reg) (n : Nibble) : fieldX (encodeXYN a x y n) = x := by
  have h : nibble (encodeXYN a x y n) 2 = regField x := by
    apply BitVec.eq_of_getLsbD_eq
    intro j hj
    simp only [nibble, encodeXYN, BitVec.getLsbD_extractLsb', BitVec.getLsbD_append, hj, decide_true, Bool.true_and]
    rw [if_neg (by omega), if_neg (by omega), if_pos (by omega)]
    congr 1
    omega
  rw [fieldX, h]
  rfl

@[simp] theorem fieldY_encodeXYN (a : Nibble) (x y : Reg) (n : Nibble) : fieldY (encodeXYN a x y n) = y := by
  have h : nibble (encodeXYN a x y n) 1 = regField y := by
    apply BitVec.eq_of_getLsbD_eq
    intro j hj
    simp only [nibble, encodeXYN, BitVec.getLsbD_extractLsb', BitVec.getLsbD_append, hj, decide_true, Bool.true_and]
    rw [if_neg (by omega), if_pos (by omega)]
    congr 1
    omega
  rw [fieldY, h]
  rfl

@[simp] theorem nibble0_encodeXYN (a : Nibble) (x y : Reg) (n : Nibble) : nibble (encodeXYN a x y n) 0 = n := by
  apply BitVec.eq_of_getLsbD_eq
  intro j hj
  simp only [nibble, encodeXYN, BitVec.getLsbD_extractLsb', BitVec.getLsbD_append, hj, decide_true, Bool.true_and]
  rw [if_pos (by omega)]
  congr 1
  omega

@[simp] theorem fieldN_encodeXYN (a : Nibble) (x y : Reg) (n : Nibble) : fieldN (encodeXYN a x y n) = n :=
  nibble0_encodeXYN a x y n

theorem encodeXYN_mask (a : Nibble) (x y : Reg) (n : Nibble) :
    encodeXYN a x y n &&& 0xF00F = a ++ 0#4 ++ 0#4 ++ n := by
  rw [encodeXYN, show (0xF00F : Word) = (0xF#4 ++ 0#4 ++ 0#4 ++ 0xF#4) from rfl, BitVec.and_append,
    BitVec.and_append, BitVec.and_append]
  congr 1
  · congr 1
    · congr 1
      · exact BitVec.and_allOnes
      · exact BitVec.and_zero
    · exact BitVec.and_zero
  · exact BitVec.and_allOnes

theorem encodeXYN_mask_first (a : Nibble) (x y : Reg) (n : Nibble) :
    encodeXYN a x y n &&& 0xF000 = a ++ 0#4 ++ 0#4 ++ 0#4 := by
  rw [encodeXYN, show (0xF000 : Word) = (0xF#4 ++ 0#4 ++ 0#4 ++ 0#4) from rfl, BitVec.and_append,
    BitVec.and_append, BitVec.and_append]
  congr 1
  · congr 1
    · congr 1
      · exact BitVec.and_allOnes
      · exact BitVec.and_zero
    · exact BitVec.and_zero
  · exact BitVec.and_zero

/-! ## The whole word -/

/-- A word is its four nibbles. -/
theorem word_eq_nibbles (w : Word) : w = nibble w 3 ++ nibble w 2 ++ nibble w 1 ++ nibble w 0 := by
  apply BitVec.eq_of_getLsbD_eq
  intro j hj
  simp only [nibble, BitVec.getLsbD_append, BitVec.getLsbD_extractLsb']
  by_cases h0 : j < 4
  · rw [if_pos h0]; simp [h0]
  · by_cases h1 : j - 4 < 4
    · rw [if_neg h0, if_pos h1]; simp [h1]; congr 1; omega
    · by_cases h2 : j - 4 - 4 < 4
      · rw [if_neg h0, if_neg h1, if_pos h2]; simp [h2]; congr 1; omega
      · rw [if_neg h0, if_neg h1, if_neg h2]
        have : j - 4 - 4 - 4 < 4 := by omega
        simp [this]; congr 1; omega

/-- Two words of the same four nibbles are the same word. -/
theorem word_ext (w w' : Word) (h3 : nibble w 3 = nibble w' 3) (h2 : nibble w 2 = nibble w' 2)
    (h1 : nibble w 1 = nibble w' 1) (h0 : nibble w 0 = nibble w' 0) : w = w' := by
  rw [word_eq_nibbles w, word_eq_nibbles w', h3, h2, h1, h0]

/-- The word of two bytes as a number: the byte at the lower address counts 256 (R53). -/
theorem toNat_wordOfBytes (hi lo : Byte) : (wordOfBytes hi lo).toNat = hi.toNat * 256 + lo.toNat := by
  have := lo.isLt
  rw [wordOfBytes, BitVec.toNat_append, ← Nat.shiftLeft_add_eq_or_of_lt this, Nat.shiftLeft_eq]

end Sys2Proof
end

