-- ==== Sys2Proof/Laws/State.lean ====
section
/-! SUPPORT. The small lemmas of the state updates: what each update leaves in each field. All are true by unfolding, so
that no later proof unfolds a record update. -/

namespace Sys2Proof.Machine

variable (s : State)

/-! ## V[r] <- b -/

@[simp] theorem setReg_v (r : Reg) (b : Byte) : (s.setReg r b).v = s.v.set r b := rfl
@[simp] theorem setReg_i (r : Reg) (b : Byte) : (s.setReg r b).i = s.i := rfl
@[simp] theorem setReg_pc (r : Reg) (b : Byte) : (s.setReg r b).pc = s.pc := rfl
@[simp] theorem setReg_sp (r : Reg) (b : Byte) : (s.setReg r b).sp = s.sp := rfl
@[simp] theorem setReg_stack (r : Reg) (b : Byte) : (s.setReg r b).stack = s.stack := rfl
@[simp] theorem setReg_dt (r : Reg) (b : Byte) : (s.setReg r b).dt = s.dt := rfl
@[simp] theorem setReg_st (r : Reg) (b : Byte) : (s.setReg r b).st = s.st := rfl
@[simp] theorem setReg_mem (r : Reg) (b : Byte) : (s.setReg r b).mem = s.mem := rfl
@[simp] theorem setReg_fb (r : Reg) (b : Byte) : (s.setReg r b).fb = s.fb := rfl
@[simp] theorem setReg_mode (r : Reg) (b : Byte) : (s.setReg r b).mode = s.mode := rfl
@[simp] theorem setReg_waitReg (r : Reg) (b : Byte) : (s.setReg r b).waitReg = s.waitReg := rfl
@[simp] theorem setReg_fault (r : Reg) (b : Byte) : (s.setReg r b).fault = s.fault := rfl
@[simp] theorem setReg_keys (r : Reg) (b : Byte) : (s.setReg r b).keys = s.keys := rfl
@[simp] theorem setReg_randomInput (r : Reg) (b : Byte) : (s.setReg r b).randomInput = s.randomInput := rfl
@[simp] theorem setReg_randomTaken (r : Reg) (b : Byte) : (s.setReg r b).randomTaken = s.randomTaken := rfl
@[simp] theorem setReg_config (r : Reg) (b : Byte) : (s.setReg r b).config = s.config := rfl

/-! ## Advancing PC -/

@[simp] theorem advance_v : (s.advance).v = s.v := rfl
@[simp] theorem advance_i : (s.advance).i = s.i := rfl
@[simp] theorem advance_pc : (s.advance).pc = s.pc + 2 := rfl
@[simp] theorem advance_sp : (s.advance).sp = s.sp := rfl
@[simp] theorem advance_stack : (s.advance).stack = s.stack := rfl
@[simp] theorem advance_dt : (s.advance).dt = s.dt := rfl
@[simp] theorem advance_st : (s.advance).st = s.st := rfl
@[simp] theorem advance_mem : (s.advance).mem = s.mem := rfl
@[simp] theorem advance_fb : (s.advance).fb = s.fb := rfl
@[simp] theorem advance_mode : (s.advance).mode = s.mode := rfl
@[simp] theorem advance_waitReg : (s.advance).waitReg = s.waitReg := rfl
@[simp] theorem advance_fault : (s.advance).fault = s.fault := rfl
@[simp] theorem advance_keys : (s.advance).keys = s.keys := rfl
@[simp] theorem advance_randomInput : (s.advance).randomInput = s.randomInput := rfl
@[simp] theorem advance_randomTaken : (s.advance).randomTaken = s.randomTaken := rfl
@[simp] theorem advance_config : (s.advance).config = s.config := rfl

/-! ## Storing a byte -/

@[simp] theorem poke_v (a : Nat) (b : Byte) : (s.poke a b).v = s.v := rfl
@[simp] theorem poke_i (a : Nat) (b : Byte) : (s.poke a b).i = s.i := rfl
@[simp] theorem poke_pc (a : Nat) (b : Byte) : (s.poke a b).pc = s.pc := rfl
@[simp] theorem poke_sp (a : Nat) (b : Byte) : (s.poke a b).sp = s.sp := rfl
@[simp] theorem poke_stack (a : Nat) (b : Byte) : (s.poke a b).stack = s.stack := rfl
@[simp] theorem poke_dt (a : Nat) (b : Byte) : (s.poke a b).dt = s.dt := rfl
@[simp] theorem poke_st (a : Nat) (b : Byte) : (s.poke a b).st = s.st := rfl
@[simp] theorem poke_mem (a : Nat) (b : Byte) : (s.poke a b).mem = Memory.put s.config s.mem a b := rfl
@[simp] theorem poke_fb (a : Nat) (b : Byte) : (s.poke a b).fb = s.fb := rfl
@[simp] theorem poke_mode (a : Nat) (b : Byte) : (s.poke a b).mode = s.mode := rfl
@[simp] theorem poke_waitReg (a : Nat) (b : Byte) : (s.poke a b).waitReg = s.waitReg := rfl
@[simp] theorem poke_fault (a : Nat) (b : Byte) : (s.poke a b).fault = s.fault := rfl
@[simp] theorem poke_keys (a : Nat) (b : Byte) : (s.poke a b).keys = s.keys := rfl
@[simp] theorem poke_randomInput (a : Nat) (b : Byte) : (s.poke a b).randomInput = s.randomInput := rfl
@[simp] theorem poke_randomTaken (a : Nat) (b : Byte) : (s.poke a b).randomTaken = s.randomTaken := rfl
@[simp] theorem poke_config (a : Nat) (b : Byte) : (s.poke a b).config = s.config := rfl

/-! ## VF <- flag -/

@[simp] theorem setFlag_v (f : Bool) : (s.setFlag f).v = s.v.set 15 (flagByte f) := rfl
@[simp] theorem setFlag_i (f : Bool) : (s.setFlag f).i = s.i := rfl
@[simp] theorem setFlag_pc (f : Bool) : (s.setFlag f).pc = s.pc := rfl
@[simp] theorem setFlag_sp (f : Bool) : (s.setFlag f).sp = s.sp := rfl
@[simp] theorem setFlag_stack (f : Bool) : (s.setFlag f).stack = s.stack := rfl
@[simp] theorem setFlag_dt (f : Bool) : (s.setFlag f).dt = s.dt := rfl
@[simp] theorem setFlag_st (f : Bool) : (s.setFlag f).st = s.st := rfl
@[simp] theorem setFlag_mem (f : Bool) : (s.setFlag f).mem = s.mem := rfl
@[simp] theorem setFlag_fb (f : Bool) : (s.setFlag f).fb = s.fb := rfl
@[simp] theorem setFlag_mode (f : Bool) : (s.setFlag f).mode = s.mode := rfl
@[simp] theorem setFlag_waitReg (f : Bool) : (s.setFlag f).waitReg = s.waitReg := rfl
@[simp] theorem setFlag_fault (f : Bool) : (s.setFlag f).fault = s.fault := rfl
@[simp] theorem setFlag_keys (f : Bool) : (s.setFlag f).keys = s.keys := rfl
@[simp] theorem setFlag_randomInput (f : Bool) : (s.setFlag f).randomInput = s.randomInput := rfl
@[simp] theorem setFlag_randomTaken (f : Bool) : (s.setFlag f).randomTaken = s.randomTaken := rfl
@[simp] theorem setFlag_config (f : Bool) : (s.setFlag f).config = s.config := rfl

/-! ## V[x] <- result, VF <- flag -/

@[simp] theorem setWithFlag_v (x : Reg) (b : Byte) (f : Bool) : (s.setWithFlag x b f).v = (s.v.set x b).set 15 (flagByte f) := rfl
@[simp] theorem setWithFlag_i (x : Reg) (b : Byte) (f : Bool) : (s.setWithFlag x b f).i = s.i := rfl
@[simp] theorem setWithFlag_pc (x : Reg) (b : Byte) (f : Bool) : (s.setWithFlag x b f).pc = s.pc := rfl
@[simp] theorem setWithFlag_sp (x : Reg) (b : Byte) (f : Bool) : (s.setWithFlag x b f).sp = s.sp := rfl
@[simp] theorem setWithFlag_stack (x : Reg) (b : Byte) (f : Bool) : (s.setWithFlag x b f).stack = s.stack := rfl
@[simp] theorem setWithFlag_dt (x : Reg) (b : Byte) (f : Bool) : (s.setWithFlag x b f).dt = s.dt := rfl
@[simp] theorem setWithFlag_st (x : Reg) (b : Byte) (f : Bool) : (s.setWithFlag x b f).st = s.st := rfl
@[simp] theorem setWithFlag_mem (x : Reg) (b : Byte) (f : Bool) : (s.setWithFlag x b f).mem = s.mem := rfl
@[simp] theorem setWithFlag_fb (x : Reg) (b : Byte) (f : Bool) : (s.setWithFlag x b f).fb = s.fb := rfl
@[simp] theorem setWithFlag_mode (x : Reg) (b : Byte) (f : Bool) : (s.setWithFlag x b f).mode = s.mode := rfl
@[simp] theorem setWithFlag_waitReg (x : Reg) (b : Byte) (f : Bool) : (s.setWithFlag x b f).waitReg = s.waitReg := rfl
@[simp] theorem setWithFlag_fault (x : Reg) (b : Byte) (f : Bool) : (s.setWithFlag x b f).fault = s.fault := rfl
@[simp] theorem setWithFlag_keys (x : Reg) (b : Byte) (f : Bool) : (s.setWithFlag x b f).keys = s.keys := rfl
@[simp] theorem setWithFlag_randomInput (x : Reg) (b : Byte) (f : Bool) : (s.setWithFlag x b f).randomInput = s.randomInput := rfl
@[simp] theorem setWithFlag_randomTaken (x : Reg) (b : Byte) (f : Bool) : (s.setWithFlag x b f).randomTaken = s.randomTaken := rfl
@[simp] theorem setWithFlag_config (x : Reg) (b : Byte) (f : Bool) : (s.setWithFlag x b f).config = s.config := rfl

/-! ## Fault entry -/

@[simp] theorem raise_v (c : Cause) (w info : Word) : (s.raise c w info).v = s.v := rfl
@[simp] theorem raise_i (c : Cause) (w info : Word) : (s.raise c w info).i = s.i := rfl
@[simp] theorem raise_pc (c : Cause) (w info : Word) : (s.raise c w info).pc = s.pc := rfl
@[simp] theorem raise_sp (c : Cause) (w info : Word) : (s.raise c w info).sp = s.sp := rfl
@[simp] theorem raise_stack (c : Cause) (w info : Word) : (s.raise c w info).stack = s.stack := rfl
@[simp] theorem raise_dt (c : Cause) (w info : Word) : (s.raise c w info).dt = s.dt := rfl
@[simp] theorem raise_st (c : Cause) (w info : Word) : (s.raise c w info).st = s.st := rfl
@[simp] theorem raise_mem (c : Cause) (w info : Word) : (s.raise c w info).mem = s.mem := rfl
@[simp] theorem raise_fb (c : Cause) (w info : Word) : (s.raise c w info).fb = s.fb := rfl
@[simp] theorem raise_mode (c : Cause) (w info : Word) : (s.raise c w info).mode = .faulted := rfl
@[simp] theorem raise_waitReg (c : Cause) (w info : Word) : (s.raise c w info).waitReg = s.waitReg := rfl
@[simp] theorem raise_fault (c : Cause) (w info : Word) : (s.raise c w info).fault = ⟨c, s.pc, w, info⟩ := rfl
@[simp] theorem raise_keys (c : Cause) (w info : Word) : (s.raise c w info).keys = s.keys := rfl
@[simp] theorem raise_randomInput (c : Cause) (w info : Word) : (s.raise c w info).randomInput = s.randomInput := rfl
@[simp] theorem raise_randomTaken (c : Cause) (w info : Word) : (s.raise c w info).randomTaken = s.randomTaken := rfl
@[simp] theorem raise_config (c : Cause) (w info : Word) : (s.raise c w info).config = s.config := rfl

/-! ## Tick -/

@[simp] theorem tick_v : (s.tick).v = s.v := rfl
@[simp] theorem tick_i : (s.tick).i = s.i := rfl
@[simp] theorem tick_pc : (s.tick).pc = s.pc := rfl
@[simp] theorem tick_sp : (s.tick).sp = s.sp := rfl
@[simp] theorem tick_stack : (s.tick).stack = s.stack := rfl
@[simp] theorem tick_dt : (s.tick).dt = countDown s.dt := rfl
@[simp] theorem tick_st : (s.tick).st = countDown s.st := rfl
@[simp] theorem tick_mem : (s.tick).mem = s.mem := rfl
@[simp] theorem tick_fb : (s.tick).fb = s.fb := rfl
@[simp] theorem tick_mode : (s.tick).mode = s.mode := rfl
@[simp] theorem tick_waitReg : (s.tick).waitReg = s.waitReg := rfl
@[simp] theorem tick_fault : (s.tick).fault = s.fault := rfl
@[simp] theorem tick_keys : (s.tick).keys = s.keys := rfl
@[simp] theorem tick_randomInput : (s.tick).randomInput = s.randomInput := rfl
@[simp] theorem tick_randomTaken : (s.tick).randomTaken = s.randomTaken := rfl
@[simp] theorem tick_config : (s.tick).config = s.config := rfl

/-! ## SetKey -/

@[simp] theorem setKey_v (k : Reg) (b : Bool) : (s.setKey k b).v = s.v := rfl
@[simp] theorem setKey_i (k : Reg) (b : Bool) : (s.setKey k b).i = s.i := rfl
@[simp] theorem setKey_pc (k : Reg) (b : Bool) : (s.setKey k b).pc = s.pc := rfl
@[simp] theorem setKey_sp (k : Reg) (b : Bool) : (s.setKey k b).sp = s.sp := rfl
@[simp] theorem setKey_stack (k : Reg) (b : Bool) : (s.setKey k b).stack = s.stack := rfl
@[simp] theorem setKey_dt (k : Reg) (b : Bool) : (s.setKey k b).dt = s.dt := rfl
@[simp] theorem setKey_st (k : Reg) (b : Bool) : (s.setKey k b).st = s.st := rfl
@[simp] theorem setKey_mem (k : Reg) (b : Bool) : (s.setKey k b).mem = s.mem := rfl
@[simp] theorem setKey_fb (k : Reg) (b : Bool) : (s.setKey k b).fb = s.fb := rfl
@[simp] theorem setKey_mode (k : Reg) (b : Bool) : (s.setKey k b).mode = s.mode := rfl
@[simp] theorem setKey_waitReg (k : Reg) (b : Bool) : (s.setKey k b).waitReg = s.waitReg := rfl
@[simp] theorem setKey_fault (k : Reg) (b : Bool) : (s.setKey k b).fault = s.fault := rfl
@[simp] theorem setKey_keys (k : Reg) (b : Bool) : (s.setKey k b).keys = s.keys.set k b := rfl
@[simp] theorem setKey_randomInput (k : Reg) (b : Bool) : (s.setKey k b).randomInput = s.randomInput := rfl
@[simp] theorem setKey_randomTaken (k : Reg) (b : Bool) : (s.setKey k b).randomTaken = s.randomTaken := rfl
@[simp] theorem setKey_config (k : Reg) (b : Bool) : (s.setKey k b).config = s.config := rfl

end Sys2Proof.Machine
end

