-- ==== Sys2Proof/Laws/Memory.lean ====
section
/-! SUPPORT. Laws of memory: a read after a write, everything a write leaves alone, and the canonical form that every
memory operation keeps (R58, R62; log 8). -/

namespace Sys2Proof.Machine

/-! ## The list operations -/

theorem Memory.find?_filter_ne (m : List Host.Cell) (a a' : Nat) :
    Memory.find? (m.filter (fun cell => cell.1 != a)) a' = if a' = a then none else Memory.find? m a' := by
  induction m with
  | nil => simp [Memory.find?]
  | cons cell m ih =>
    obtain ⟨k, b⟩ := cell
    by_cases hk : k = a <;> by_cases ha : a' = a <;> by_cases hka : k = a' <;>
      simp_all [Memory.find?]

theorem Memory.find?_insert (m : List Host.Cell) (a a' : Nat) (b : Byte) (h : Memory.find? m a = none) :
    Memory.find? (Memory.insert a b m) a' = if a' = a then some b else Memory.find? m a' := by
  induction m with
  | nil => by_cases ha : a = a' <;> simp [Memory.insert, Memory.find?, ha, eq_comm]
  | cons cell m ih =>
    obtain ⟨k, c⟩ := cell
    have hk : k ≠ a := by rintro rfl; simp [Memory.find?] at h
    have hm : Memory.find? m a = none := by simpa [Memory.find?, hk] using h
    by_cases hlt : a < k
    · simp only [Memory.insert, if_pos hlt]
      by_cases ha : a = a'
      · simp [Memory.find?, ha]
      · simp [Memory.find?, ha, Ne.symm ha]
    · by_cases hka : k = a'
      · subst hka; simp [Memory.insert, Memory.find?, hlt, hk]
      · simp [Memory.insert, Memory.find?, hlt, hka, ih hm]

/-- What a stored list reads as: the byte stored at its address, the old reading elsewhere. -/
theorem Memory.read_put (c : Config) (m : List Host.Cell) (a a' : Nat) (b : Byte) :
    (Memory.find? (Memory.put c m a b) a').getD (initialByte c a') =
      if a' = a then b else (Memory.find? m a').getD (initialByte c a') := by
  unfold Memory.put
  split
  · rename_i hb
    rw [Memory.find?_filter_ne]
    by_cases ha : a' = a
    · subst ha; simp [hb]
    · simp [ha]
  · rw [Memory.find?_insert _ _ _ _ (by rw [Memory.find?_filter_ne]; simp), Memory.find?_filter_ne]
    by_cases ha : a' = a <;> simp [ha]

/-! ## Reading after writing -/

/-- The one law of a store: the byte at its address, every other byte as before (R58). -/
@[simp] theorem peek_poke (s : State) (a a' : Nat) (b : Byte) :
    (s.poke a b).peek a' = if a' = a then b else s.peek a' := Memory.read_put s.config s.mem a a' b

/-- A list of bytes stored from `base` on: the k-th byte at base + k, every byte outside as before. -/
theorem peek_pokeBytes (s : State) (base a : Nat) (bs : List Byte) :
    (s.pokeBytes base bs).peek a =
      if h : base ≤ a ∧ a - base < bs.length then bs[a - base] else s.peek a := by
  induction bs generalizing s base with
  | nil => simp [State.pokeBytes]
  | cons b bs ih =>
    rw [State.pokeBytes, ih, peek_poke]
    by_cases h0 : a = base
    · subst h0; simp
    · by_cases h1 : base + 1 ≤ a ∧ a - (base + 1) < bs.length
      · have h2 : a - base = (a - (base + 1)) + 1 := by omega
        have h3 : base ≤ a ∧ a - base < (b :: bs).length := by simp only [List.length_cons]; omega
        simp only [h1, h3, and_self, dite_true]
        simp only [h2, List.getElem_cons_succ]
      · have h3 : ¬(base ≤ a ∧ a - base < (b :: bs).length) := by simp only [List.length_cons]; omega
        rw [dif_neg h1, dif_neg h3, if_neg h0]

/-- Storing bytes changes memory and nothing else. -/
theorem pokeBytes_frame (s : State) (base : Nat) (bs : List Byte) :
    s.pokeBytes base bs = { s with mem := (s.pokeBytes base bs).mem } := by
  induction bs generalizing s base with
  | nil => rfl
  | cons b bs ih =>
    rw [State.pokeBytes, ih]
    simp [State.poke]

theorem length_peekBytes (s : State) (base n : Nat) : (s.peekBytes base n).length = n := by
  induction n generalizing base with
  | zero => rfl
  | succ n ih => simp [State.peekBytes, ih]

theorem getElem_peekBytes (s : State) (base n k : Nat) (h : k < (s.peekBytes base n).length) :
    (s.peekBytes base n)[k] = s.peek (base + k) := by
  induction n generalizing base k with
  | zero => simp [State.peekBytes] at h
  | succ n ih =>
    cases k with
    | zero => simp [State.peekBytes]
    | succ k => simp only [State.peekBytes, List.getElem_cons_succ, ih]; congr 1; omega

/-! ## Range checks (R55, R56) -/

theorem inRange_iff (base n : Nat) : inRange base n = true ↔ n = 0 ∨ base + n - 1 ≤ 0xFFF := by
  simp [inRange]

theorem readBytes_eq_some (s : State) (base n : Nat) (bs : List Byte) :
    s.readBytes base n = some bs ↔ (n = 0 ∨ base + n - 1 ≤ 0xFFF) ∧ s.peekBytes base n = bs := by
  simp only [State.readBytes]
  split <;> simp_all [inRange_iff]

theorem writeBytes_eq_some (s t : State) (base : Nat) (bs : List Byte) :
    s.writeBytes base bs = some t ↔ (bs.length = 0 ∨ base + bs.length - 1 ≤ 0xFFF) ∧ s.pokeBytes base bs = t := by
  simp only [State.writeBytes]
  split <;> simp_all [inRange_iff]

/-! ## The canonical form -/

theorem Memory.mem_insert (m : List Host.Cell) (a : Nat) (b : Byte) (cell : Host.Cell) :
    cell ∈ Memory.insert a b m ↔ cell = (a, b) ∨ cell ∈ m := by
  induction m with
  | nil => simp [Memory.insert]
  | cons c m ih =>
    obtain ⟨k, v⟩ := c
    simp only [Memory.insert]
    split
    · simp
    · simp only [List.mem_cons, ih]; tauto

theorem Memory.rising_filter (m : List Host.Cell) (p : Host.Cell → Bool) (h : Memory.rising m = true) :
    Memory.rising (m.filter p) = true := by
  induction m with
  | nil => rfl
  | cons c m ih =>
    obtain ⟨k, v⟩ := c
    simp only [Memory.rising, Bool.and_eq_true, List.all_eq_true] at h
    rw [List.filter_cons]
    split
    · simp only [Memory.rising, Bool.and_eq_true, List.all_eq_true]
      exact ⟨fun x hx => h.1 x (List.mem_of_mem_filter hx), ih h.2⟩
    · exact ih h.2

theorem Memory.rising_insert (m : List Host.Cell) (a : Nat) (b : Byte) (h : Memory.rising m = true)
    (hne : ∀ cell ∈ m, cell.1 ≠ a) : Memory.rising (Memory.insert a b m) = true := by
  induction m with
  | nil => rfl
  | cons c m ih =>
    obtain ⟨k, v⟩ := c
    have hm := h
    simp only [Memory.rising, Bool.and_eq_true, List.all_eq_true, decide_eq_true_eq] at hm
    have hk : k ≠ a := hne (k, v) (by simp)
    simp only [Memory.insert]
    split
    · rename_i hlt
      simp only [Memory.rising, Bool.and_eq_true, List.all_eq_true, decide_eq_true_eq, List.mem_cons]
      refine ⟨?_, hm⟩
      rintro x (rfl | hx)
      · exact hlt
      · exact lt_trans hlt (hm.1 x hx)
    · rename_i hlt
      simp only [Memory.rising, Bool.and_eq_true, List.all_eq_true, decide_eq_true_eq]
      refine ⟨fun x hx => ?_, ih hm.2 (fun cell hc => hne cell (by simp [hc]))⟩
      rcases (Memory.mem_insert m a b x).1 hx with rfl | hx
      · show k < a
        omega
      · exact hm.1 x hx

/-- A store inside memory keeps the canonical form. -/
theorem Memory.wf_put (c : Config) (m : List Host.Cell) (a : Nat) (b : Byte) (ha : a ≤ 0xFFF)
    (h : Memory.wf c m = true) : Memory.wf c (Memory.put c m a b) = true := by
  simp only [Memory.wf, Bool.and_eq_true, List.all_eq_true] at h ⊢
  have hr := Memory.rising_filter m (fun cell => cell.1 != a) h.1
  have hall : ∀ cell ∈ m.filter (fun cell => cell.1 != a),
      decide (cell.1 < 0x1000) = true ∧ (cell.2 != initialByte c cell.1) = true :=
    fun cell hc => h.2 cell (List.mem_of_mem_filter hc)
  unfold Memory.put
  split
  · exact ⟨hr, hall⟩
  · rename_i hb
    refine ⟨Memory.rising_insert _ a b hr ?_, fun cell hc => ?_⟩
    · intro cell hc
      simpa using (List.mem_filter.1 hc).2
    · rcases (Memory.mem_insert _ a b cell).1 hc with rfl | hc
      · exact ⟨by simp; omega, by simpa using hb⟩
      · exact hall cell hc

/-- Stores inside memory keep the canonical form. -/
theorem wf_pokeBytes (s : State) (base : Nat) (bs : List Byte) (hb : bs.length = 0 ∨ base + bs.length - 1 ≤ 0xFFF)
    (h : Memory.wf s.config s.mem = true) :
    Memory.wf (s.pokeBytes base bs).config (s.pokeBytes base bs).mem = true := by
  induction bs generalizing s base with
  | nil => exact h
  | cons b bs ih =>
    simp only [List.length_cons] at hb
    exact ih (s.poke base b) (base + 1) (by omega) (Memory.wf_put _ _ _ _ (by omega) h)

/-- Memory right after reset is in canonical form, for all parameters: nothing is listed. -/
theorem reset_mem_wf (c : Config) : Memory.wf (State.resetFor c).config (State.resetFor c).mem = true := rfl

end Sys2Proof.Machine
end

