-- ==== Sys2Proof/Laws/Registers.lean ====
section
/-! SUPPORT. Laws of the register file, the stack, the key and random inputs: one lemma for each shared operation that says
everything it does. -/

namespace Sys2Proof.Machine

/-! ## V -/

/-- The one law of a register write (R20). -/
@[simp] theorem reg_setReg (s : State) (r r' : Reg) (b : Byte) :
    (s.setReg r b).reg r' = if r' = r then b else s.reg r' := by
  simp only [State.reg, State.setReg, Fin.getElem_fin, Vector.getElem_set, Fin.ext_iff]
  split <;> split <;> first | rfl | omega

@[simp] theorem reg_advance (s : State) (r : Reg) : s.advance.reg r = s.reg r := rfl

@[simp] theorem reg_raise (s : State) (c : Cause) (w info : Word) (r : Reg) : (s.raise c w info).reg r = s.reg r := rfl

@[simp] theorem peek_setReg (s : State) (r : Reg) (b : Byte) (a : Nat) : (s.setReg r b).peek a = s.peek a := rfl

@[simp] theorem peek_advance (s : State) (a : Nat) : s.advance.peek a = s.peek a := rfl

/-- VF <- f is a write of V[15] (R21). -/
@[simp] theorem reg_setFlag (s : State) (r : Reg) (f : Bool) :
    (s.setFlag f).reg r = if r = 15 then flagByte f else s.reg r := reg_setReg s 15 r (flagByte f)

@[simp] theorem peek_setFlag (s : State) (f : Bool) (a : Nat) : (s.setFlag f).peek a = s.peek a := rfl

/-- The flag and the result of a flag-writing instruction: VF is the flag, whatever x is (R111). -/
@[simp] theorem reg_setWithFlag (s : State) (x r : Reg) (b : Byte) (f : Bool) :
    (s.setWithFlag x b f).reg r = if r = 15 then flagByte f else if r = x then b else s.reg r := by
  simp [State.setWithFlag]

@[simp] theorem toNat_flagByte (f : Bool) : (flagByte f).toNat = if f then 1 else 0 := by
  cases f <;> rfl

/-- Loading a list of registers from V[k] on (R135). -/
theorem reg_loadRegs (s : State) (k : Nat) (bs : List Byte) (r : Reg) :
    (s.loadRegs k bs).reg r = if h : k ≤ r.val ∧ r.val - k < bs.length then bs[r.val - k] else s.reg r := by
  induction bs generalizing s k with
  | nil => simp [State.loadRegs]
  | cons b bs ih =>
    rw [State.loadRegs]
    split
    · rename_i hk
      rw [ih, reg_setReg]
      by_cases h0 : r.val = k
      · have : r = ⟨k, hk⟩ := Fin.ext h0
        simp [this]
      · have hne : r ≠ ⟨k, hk⟩ := fun h => h0 (congrArg Fin.val h)
        by_cases h1 : k + 1 ≤ r.val ∧ r.val - (k + 1) < bs.length
        · have h2 : r.val - k = (r.val - (k + 1)) + 1 := by omega
          have h3 : k ≤ r.val ∧ r.val - k < (b :: bs).length := by simp only [List.length_cons]; omega
          simp only [h1, h3, and_self, dite_true]
          simp only [h2, List.getElem_cons_succ]
        · have h3 : ¬(k ≤ r.val ∧ r.val - k < (b :: bs).length) := by simp only [List.length_cons]; omega
          rw [dif_neg h1, dif_neg h3, if_neg hne]
    · rename_i hk
      have : ¬(k ≤ r.val ∧ r.val - k < (b :: bs).length) := by have := r.isLt; omega
      rw [dif_neg this]

/-- Loading registers changes V and nothing else. -/
theorem loadRegs_frame (s : State) (k : Nat) (bs : List Byte) :
    s.loadRegs k bs = { s with v := (s.loadRegs k bs).v } := by
  induction bs generalizing s k with
  | nil => rfl
  | cons b bs ih =>
    rw [State.loadRegs]
    split
    · rw [ih]; simp [State.setReg]
    · rfl

theorem length_firstRegs (s : State) (x : Reg) : (s.firstRegs x).length = x.val + 1 := by
  have := x.isLt
  simp only [State.firstRegs, List.length_take, Vector.length_toList]
  omega

theorem getElem_firstRegs (s : State) (x r : Reg) (h : r.val < (s.firstRegs x).length) :
    (s.firstRegs x)[r.val] = s.reg r := by
  simp [State.firstRegs, State.reg]

/-! ## The skip -/

/-- A skip is a word further, or nothing (R102). -/
theorem skipIf_eq (s : State) (c : Bool) : s.skipIf c = { s with pc := if c then s.pc + 2 else s.pc } := by
  cases c <;> rfl

/-! ## The stack -/

/-- A push, where it answers (R96). -/
theorem push_eq_some (s t : State) (w : Word) :
    s.push w = some t ↔ ∃ h : s.sp.toNat < 16, t = { s with stack := s.stack.set s.sp.toNat w, sp := s.sp + 1 } := by
  simp only [State.push]
  split <;> simp_all [eq_comm]

/-- A pop, where it answers (R97). -/
theorem pop_eq_some (s t : State) :
    s.pop = some t ↔ ∃ h : (s.sp - 1).toNat < 16, t = { s with sp := s.sp - 1, pc := s.stack[(s.sp - 1).toNat] } := by
  simp only [State.pop]
  split
  · rename_i h
    exact ⟨fun he => ⟨h, (Option.some.inj he).symm⟩, fun ⟨_, he⟩ => congrArg some he.symm⟩
  · rename_i h
    exact ⟨fun he => by simp at he, fun ⟨h', _⟩ => absurd h' h⟩

/-! ## Inputs -/

/-- One random byte taken: the host's next one, or the free value of this draw; exactly one is counted (R123). -/
theorem takeRandom_cases (s : State) :
    (∃ b rest, s.randomInput = b :: rest ∧
      s.takeRandom = (b, { s with randomInput := rest, randomTaken := s.randomTaken + 1 })) ∨
    (s.randomInput = [] ∧
      s.takeRandom = (Config.randomByte s.randomTaken, { s with randomTaken := s.randomTaken + 1 })) := by
  cases h : s.randomInput with
  | nil => exact .inr ⟨rfl, by simp [State.takeRandom, h]⟩
  | cons b rest => exact .inl ⟨b, rest, rfl, by simp [State.takeRandom, h]⟩

theorem mem_keyCodes (k : Reg) : k ∈ keyCodes := by revert k; decide

/-- The poll finds nothing exactly where no key is pressed. -/
theorem lowestKey_eq_none (s : State) : s.lowestKey = none ↔ ∀ k : Reg, s.key k = false := by
  simp only [State.lowestKey, List.find?_eq_none, Bool.not_eq_true]
  exact ⟨fun h k => h k (mem_keyCodes k), fun h k _ => h k⟩

/-- The poll finds a pressed key below which none is pressed (R143). -/
theorem lowestKey_eq_some (s : State) (k : Reg) :
    s.lowestKey = some k ↔ s.key k = true ∧ ∀ j : Reg, j < k → s.key j = false := by
  have hsorted : keyCodes.Pairwise (· < ·) := by decide
  constructor
  · intro h
    obtain ⟨hk, as, bs, heq, has⟩ := List.find?_eq_some_iff_append.1 h
    refine ⟨hk, fun j hj => ?_⟩
    have hmem := mem_keyCodes j
    rw [heq] at hmem hsorted
    rcases List.mem_append.1 hmem with hj' | hj'
    · simpa using has j hj'
    · rcases List.mem_cons.1 hj' with rfl | hj'
      · exact absurd hj (lt_irrefl _)
      · have := (List.pairwise_cons.1 (List.pairwise_append.1 hsorted).2.1).1 j hj'
        exact absurd hj (not_lt.2 this.le)
  · rintro ⟨hk, hlow⟩
    cases h : s.lowestKey with
    | none => exact absurd hk (by simp [(lowestKey_eq_none s).1 h k])
    | some j =>
      have hj : s.key j = true := by simpa using List.find?_some h
      have h1 : ¬ j < k := fun hlt => by simp [hlow j hlt] at hj
      have h2 : ¬ k < j := by
        intro hlt
        obtain ⟨-, as, bs, heq, has⟩ := List.find?_eq_some_iff_append.1 h
        have hmem := mem_keyCodes k
        rw [heq] at hmem hsorted
        rcases List.mem_append.1 hmem with hk' | hk'
        · exact absurd hk (by simpa using has k hk')
        · rcases List.mem_cons.1 hk' with rfl | hk'
          · exact lt_irrefl _ hlt
          · have := (List.pairwise_cons.1 (List.pairwise_append.1 hsorted).2.1).1 k hk'
            exact absurd hlt (not_lt.2 this.le)
      rw [show j = k from le_antisymm (not_lt.1 h2) (not_lt.1 h1)]

/-- A register names a key exactly where it holds 0..15 (R165). -/
theorem keyCode_eq_some (b : Byte) (k : Reg) : keyCode b = some k ↔ b.toNat = k.val := by
  simp only [keyCode]
  split
  · simp [Fin.ext_iff]
  · have := k.isLt; simp; omega

theorem keyCode_eq_none (b : Byte) : keyCode b = none ↔ b.toNat > 15 := by
  simp only [keyCode]
  split
  · rename_i h; simp; omega
  · rename_i h; simp; omega

end Sys2Proof.Machine
end

