-- ==== Sys2Proof/Laws/Display.lean ====
section
/-! SUPPORT. Laws of the frame buffer and of the sprite draw: what a pixel reads after a write, after a sprite byte and after
a whole sprite, and when a draw has collided (R151 to R154). -/

namespace Sys2Proof.Machine

theorem shaped_iff (w h : Nat) (fb : List (List Bool)) :
    Display.shaped w h fb = true ↔ fb.length = h ∧ ∀ row ∈ fb, row.length = w := by
  simp [Display.shaped]

theorem shaped_blank (w h : Nat) : Display.shaped w h (blankDisplay w h) = true := by
  simp only [shaped_iff, blankDisplay, List.length_replicate, true_and]
  intro row hr
  rw [List.eq_of_mem_replicate hr, List.length_replicate]

theorem get_blank (w h px py : Nat) : Display.get (blankDisplay w h) px py = false := by
  simp only [Display.get, blankDisplay, List.getD_eq_getElem?_getD, List.getElem?_replicate]
  split <;> simp [List.getElem?_replicate]
  split <;> rfl

theorem length_row (w h py : Nat) (fb : List (List Bool)) (hs : Display.shaped w h fb = true) (hy : py < h) :
    (fb.getD py []).length = w := by
  obtain ⟨hl, hr⟩ := (shaped_iff w h fb).1 hs
  have hy' : py < fb.length := by omega
  rw [List.getD_eq_getElem?_getD, List.getElem?_eq_getElem hy']
  exact hr _ (List.getElem_mem hy')

/-- Nothing is lit outside the display. -/
theorem get_outside (w h px py : Nat) (fb : List (List Bool)) (hs : Display.shaped w h fb = true)
    (ho : ¬(px < w ∧ py < h)) : Display.get fb px py = false := by
  obtain ⟨hl, -⟩ := (shaped_iff w h fb).1 hs
  by_cases hy : py < h
  · have hw := length_row w h py fb hs hy
    have : ¬ px < w := fun hx => ho ⟨hx, hy⟩
    simp only [Display.get]
    rw [List.getD_eq_getElem?_getD, List.getElem?_eq_none (by omega)]
    rfl
  · have : fb.getD py [] = [] := by
      rw [List.getD_eq_getElem?_getD, List.getElem?_eq_none (by omega)]
      rfl
    rw [Display.get, this]
    rfl

/-- The one law of a pixel write inside the display. -/
theorem get_set (w h px py qx qy : Nat) (bit : Bool) (fb : List (List Bool)) (hs : Display.shaped w h fb = true)
    (hx : px < w) (hy : py < h) :
    Display.get (Display.set fb px py bit) qx qy = if qx = px ∧ qy = py then bit else Display.get fb qx qy := by
  obtain ⟨hl, -⟩ := (shaped_iff w h fb).1 hs
  have hw := length_row w h py fb hs hy
  simp only [Display.get, Display.set]
  by_cases hq : qy = py
  · subst hq
    have h1 : (fb.set qy ((fb.getD qy []).set px bit)).getD qy [] = (fb.getD qy []).set px bit := by
      rw [List.getD_eq_getElem?_getD, List.getElem?_set_self (by omega)]
      rfl
    rw [h1]
    by_cases hqx : qx = px
    · subst hqx
      rw [List.getD_eq_getElem?_getD, List.getElem?_set_self (by omega)]
      simp
    · rw [List.getD_eq_getElem?_getD, List.getElem?_set_ne (Ne.symm hqx), ← List.getD_eq_getElem?_getD]
      simp [hqx]
  · have h1 : (fb.set py ((fb.getD py []).set px bit)).getD qy [] = fb.getD qy [] := by
      rw [List.getD_eq_getElem?_getD, List.getElem?_set_ne (Ne.symm hq), ← List.getD_eq_getElem?_getD]
    rw [h1]
    simp [hq]

theorem shaped_set (w h px py : Nat) (bit : Bool) (fb : List (List Bool)) (hs : Display.shaped w h fb = true) :
    Display.shaped w h (Display.set fb px py bit) = true := by
  obtain ⟨hl, hr⟩ := (shaped_iff w h fb).1 hs
  refine (shaped_iff w h _).2 ⟨by simp [Display.set, hl], fun row hrow => ?_⟩
  by_cases hy : py < h
  · rcases List.mem_or_eq_of_mem_set hrow with hm | rfl
    · exact hr row hm
    · rw [List.length_set, length_row w h py fb hs hy]
  · rw [Display.set, List.set_eq_of_length_le (by omega)] at hrow
    exact hr row hrow

/-! ## Drawing -/

/-- The bit a list of sprite bytes drawn at (ox, oy) has at a place (R152). -/
def sheetBit (bs : List Byte) (ox oy qx qy : Nat) : Bool :=
  decide (ox ≤ qx ∧ qx < ox + 8 ∧ oy ≤ qy ∧ qy < oy + bs.length) && spriteBit (bs.getD (qy - oy) 0) (qx - ox)

/-- The place is inside the display of these parameters. -/
def inDisplay (c : Config) (qx qy : Nat) : Bool := decide (qx < c.displayW ∧ qy < c.displayH)

/-- Every display has its top left pixel (R10). -/
theorem inDisplay_origin (c : Config) : inDisplay c 0 0 = true := decide_eq_true ⟨c.displayW.2, c.displayH.2⟩

/-- What one sprite pixel does (R151, R153, R154). -/
theorem drawPixel_spec (c : Config) (px py : Nat) (bit : Bool) (d : DrawState)
    (hs : Display.shaped c.displayW c.displayH d.fb = true) :
    Display.shaped c.displayW c.displayH (drawPixel c px py bit d).fb = true ∧
    (∀ qx qy, Display.get (drawPixel c px py bit d).fb qx qy =
      xor (Display.get d.fb qx qy) (decide (qx = px ∧ qy = py) && inDisplay c qx qy && bit)) ∧
    (drawPixel c px py bit d).collided = (d.collided || (inDisplay c px py && bit && Display.get d.fb px py)) := by
  unfold drawPixel inDisplay
  split
  · rename_i hin
    refine ⟨shaped_set _ _ _ _ _ _ hs, fun qx qy => ?_, by simp [hin]⟩
    rw [get_set _ _ _ _ _ _ _ _ hs hin.1 hin.2]
    split
    · rename_i he
      obtain ⟨rfl, rfl⟩ := he
      simp [hin]
    · rename_i he
      simp [he]
  · rename_i hout
    refine ⟨hs, fun qx qy => ?_, by simp [hout]⟩
    by_cases he : qx = px ∧ qy = py
    · obtain ⟨rfl, rfl⟩ := he
      simp [hout]
    · simp [he]

/-- What the pixels of one sprite byte do, for columns without repeats. -/
theorem drawColumns_spec (c : Config) (ox py : Nat) (b : Byte) (ks : List Nat) (hn : ks.Nodup) (d : DrawState)
    (hs : Display.shaped c.displayW c.displayH d.fb = true) :
    Display.shaped c.displayW c.displayH (drawColumns c ox py b ks d).fb = true ∧
    (∀ qx qy, Display.get (drawColumns c ox py b ks d).fb qx qy =
      xor (Display.get d.fb qx qy)
        (decide (ox ≤ qx ∧ qx - ox ∈ ks ∧ qy = py) && inDisplay c qx qy && spriteBit b (qx - ox))) ∧
    ((drawColumns c ox py b ks d).collided = true ↔ d.collided = true ∨
      ∃ k ∈ ks, inDisplay c (ox + k) py = true ∧ spriteBit b k = true ∧ Display.get d.fb (ox + k) py = true) := by
  induction ks generalizing d with
  | nil => simp [drawColumns, hs]
  | cons k ks ih =>
    obtain ⟨hk, hn'⟩ := List.nodup_cons.1 hn
    obtain ⟨ps, pg, pc⟩ := drawPixel_spec c (ox + k) py (spriteBit b k) d hs
    obtain ⟨rs, rg, rc⟩ := ih hn' _ ps
    refine ⟨rs, fun qx qy => ?_, ?_⟩
    · rw [drawColumns, rg, pg]
      by_cases hqy : qy = py
      · by_cases hle : ox ≤ qx
        · by_cases hqk : qx - ox = k
          · have : qx = ox + k := by omega
            subst this
            simp [hqy, hk]
          · have h1 : ¬ qx = ox + k := by omega
            simp [hqy, hqk, h1]
        · have h1 : ¬ qx = ox + k := by omega
          simp [hle, h1]
      · simp [hqy]
    · rw [drawColumns, rc, pc]
      have hother : ∀ j ∈ ks, Display.get (drawPixel c (ox + k) py (spriteBit b k) d).fb (ox + j) py =
          Display.get d.fb (ox + j) py := by
        intro j hj
        have : ¬ j = k := fun h => hk (h ▸ hj)
        rw [pg]
        simp [this]
      constructor
      · rintro (h | ⟨j, hj, h1, h2, h3⟩)
        · simp only [Bool.or_eq_true, Bool.and_eq_true] at h
          rcases h with h | ⟨⟨h1, h2⟩, h3⟩
          · exact .inl h
          · exact .inr ⟨k, by simp, h1, h2, h3⟩
        · exact .inr ⟨j, by simp [hj], h1, h2, by rwa [hother j hj] at h3⟩
      · rintro (h | ⟨j, hj, h1, h2, h3⟩)
        · exact .inl (by simp [h])
        · rcases List.mem_cons.1 hj with rfl | hj
          · exact .inl (by simp [h1, h2, h3])
          · exact .inr ⟨j, hj, h1, h2, by rwa [hother j hj]⟩

/-- What a whole sprite does: every pixel of the display is XORed with the sprite's bit there, and the draw has collided
exactly if a 1 bit fell on a lit pixel of the display (R151, R154). -/
theorem drawRows_spec (c : Config) (ox py : Nat) (bs : List Byte) (d : DrawState)
    (hs : Display.shaped c.displayW c.displayH d.fb = true) :
    Display.shaped c.displayW c.displayH (drawRows c ox py bs d).fb = true ∧
    (∀ qx qy, Display.get (drawRows c ox py bs d).fb qx qy =
      xor (Display.get d.fb qx qy) (inDisplay c qx qy && sheetBit bs ox py qx qy)) ∧
    ((drawRows c ox py bs d).collided = true ↔ d.collided = true ∨
      ∃ qx qy, inDisplay c qx qy = true ∧ sheetBit bs ox py qx qy = true ∧ Display.get d.fb qx qy = true) := by
  induction bs generalizing py d with
  | nil =>
    have h0 : ∀ qx qy, sheetBit [] ox py qx qy = false := by
      intro qx qy
      simp only [sheetBit, List.length_nil, Bool.and_eq_false_iff, decide_eq_false_iff_not]
      exact .inl (by omega)
    simp [drawRows, hs, h0]
  | cons b bs ih =>
    have hnodup : ([0, 1, 2, 3, 4, 5, 6, 7] : List Nat).Nodup := by decide
    obtain ⟨cs, cg, cc⟩ := drawColumns_spec c ox py b [0, 1, 2, 3, 4, 5, 6, 7] hnodup d hs
    obtain ⟨rs, rg, rc⟩ := ih (py + 1) _ cs
    have hcol : ∀ n : Nat, n ∈ ([0, 1, 2, 3, 4, 5, 6, 7] : List Nat) ↔ n < 8 := by
      intro n
      simp only [List.mem_cons, List.not_mem_nil, or_false]
      omega
    -- the first row of the sheet is the byte b, the others are the sheet of bs one row lower
    have hfirst : ∀ qx qy, qy = py →
        sheetBit (b :: bs) ox py qx qy = (decide (ox ≤ qx ∧ qx - ox < 8) && spriteBit b (qx - ox)) := by
      rintro qx qy rfl
      simp only [sheetBit, List.length_cons, Nat.sub_self, List.getD_cons_zero]
      congr 1
      rw [decide_eq_decide]
      omega
    have hrest : ∀ qx qy, qy ≠ py → sheetBit (b :: bs) ox py qx qy = sheetBit bs ox (py + 1) qx qy := by
      intro qx qy hne
      by_cases hlt : py < qy
      · have : qy - py = (qy - (py + 1)) + 1 := by omega
        simp only [sheetBit, List.length_cons]
        rw [this, List.getD_cons_succ]
        congr 1
        rw [decide_eq_decide]
        omega
      · have h1 : ¬(ox ≤ qx ∧ qx < ox + 8 ∧ py ≤ qy ∧ qy < py + (b :: bs).length) := by omega
        have h2 : ¬(ox ≤ qx ∧ qx < ox + 8 ∧ py + 1 ≤ qy ∧ qy < py + 1 + bs.length) := by omega
        rw [sheetBit, sheetBit, decide_eq_false h1, decide_eq_false h2]
        rfl
    have hnone : ∀ qx, sheetBit bs ox (py + 1) qx py = false := by
      intro qx
      have h2 : ¬(ox ≤ qx ∧ qx < ox + 8 ∧ py + 1 ≤ py ∧ py < py + 1 + bs.length) := by omega
      rw [sheetBit, decide_eq_false h2]
      rfl
    refine ⟨rs, fun qx qy => ?_, ?_⟩
    · rw [drawRows, rg, cg]
      by_cases hqy : qy = py
      · subst hqy
        rw [hfirst _ _ rfl, hnone]
        simp only [hcol, and_true]
        cases inDisplay c qx qy <;> simp
      · rw [hrest _ _ hqy]
        simp [hqy]
    · rw [drawRows, rc, cc]
      have hother : ∀ qx qy, qy ≠ py →
          Display.get (drawColumns c ox py b [0, 1, 2, 3, 4, 5, 6, 7] d).fb qx qy = Display.get d.fb qx qy := by
        intro qx qy hne
        rw [cg]
        simp [hne]
      constructor
      · rintro ((h | ⟨k, hk, h1, h2, h3⟩) | ⟨qx, qy, h1, h2, h3⟩)
        · exact .inl h
        · have hk8 := (hcol k).1 hk
          refine .inr ⟨ox + k, py, h1, ?_, h3⟩
          rw [hfirst _ _ rfl]
          simp [hk8, h2]
        · have hne : qy ≠ py := by
            rintro rfl
            simp [hnone] at h2
          exact .inr ⟨qx, qy, h1, by rwa [hrest _ _ hne], by rwa [hother _ _ hne] at h3⟩
      · rintro (h | ⟨qx, qy, h1, h2, h3⟩)
        · exact .inl (.inl h)
        · by_cases hqy : qy = py
          · subst hqy
            rw [hfirst _ _ rfl] at h2
            simp only [Bool.and_eq_true, decide_eq_true_eq] at h2
            have he : ox + (qx - ox) = qx := by omega
            exact .inl (.inr ⟨qx - ox, (hcol _).2 h2.1.2, by rwa [he], h2.2, by rwa [he]⟩)
          · exact .inr ⟨qx, qy, h1, by rwa [← hrest _ _ hqy], by rwa [hother _ _ hqy]⟩

end Sys2Proof.Machine
end

