-- ==== Sys2Proof/Laws/PerInstr.lean ====
section
/-! SUPPORT. One law for every instruction, constructor by constructor: its word agrees with its row of
spec/opcode_table.json, and the row is one of the table's 35 (R75, R76). -/

namespace Sys2Proof.Laws.TableRow

/-- The instruction's word, under the mask of its row, is the row's match. -/
def Statement (i : Instr) : Prop := (tableRow i).accepts (encode i) = true ∧ tableRow i ∈ opcodeTable

theorem of_eq (i : Instr) (h : encode i &&& (tableRow i).mask = (tableRow i).value) (hm : tableRow i ∈ opcodeTable) :
    Statement i := ⟨by simpa [MaskMatch.accepts] using h, hm⟩

theorem sys (nnn : Addr) : Statement (.sys nnn) :=
  of_eq _ (encodeNNN_mask _ nnn) (by simp [tableRow, opcodeTable])

theorem cls : Statement .cls :=
  of_eq _ rfl (by decide)

theorem ret : Statement .ret :=
  of_eq _ rfl (by decide)

theorem jp (nnn : Addr) : Statement (.jp nnn) :=
  of_eq _ (encodeNNN_mask _ nnn) (by simp [tableRow, opcodeTable])

theorem call (nnn : Addr) : Statement (.call nnn) :=
  of_eq _ (encodeNNN_mask _ nnn) (by simp [tableRow, opcodeTable])

theorem seImm (x : Reg) (kk : Byte) : Statement (.seImm x kk) :=
  of_eq _ (encodeXKK_mask _ x kk) (by simp [tableRow, opcodeTable])

theorem sneImm (x : Reg) (kk : Byte) : Statement (.sneImm x kk) :=
  of_eq _ (encodeXKK_mask _ x kk) (by simp [tableRow, opcodeTable])

theorem seReg (x : Reg) (y : Reg) : Statement (.seReg x y) :=
  of_eq _ (encodeXYN_mask _ x y _) (by simp [tableRow, opcodeTable])

theorem ldImm (x : Reg) (kk : Byte) : Statement (.ldImm x kk) :=
  of_eq _ (encodeXKK_mask _ x kk) (by simp [tableRow, opcodeTable])

theorem addImm (x : Reg) (kk : Byte) : Statement (.addImm x kk) :=
  of_eq _ (encodeXKK_mask _ x kk) (by simp [tableRow, opcodeTable])

theorem ldReg (x : Reg) (y : Reg) : Statement (.ldReg x y) :=
  of_eq _ (encodeXYN_mask _ x y _) (by simp [tableRow, opcodeTable])

theorem orReg (x : Reg) (y : Reg) : Statement (.orReg x y) :=
  of_eq _ (encodeXYN_mask _ x y _) (by simp [tableRow, opcodeTable])

theorem andReg (x : Reg) (y : Reg) : Statement (.andReg x y) :=
  of_eq _ (encodeXYN_mask _ x y _) (by simp [tableRow, opcodeTable])

theorem xorReg (x : Reg) (y : Reg) : Statement (.xorReg x y) :=
  of_eq _ (encodeXYN_mask _ x y _) (by simp [tableRow, opcodeTable])

theorem addReg (x : Reg) (y : Reg) : Statement (.addReg x y) :=
  of_eq _ (encodeXYN_mask _ x y _) (by simp [tableRow, opcodeTable])

theorem sub (x : Reg) (y : Reg) : Statement (.sub x y) :=
  of_eq _ (encodeXYN_mask _ x y _) (by simp [tableRow, opcodeTable])

theorem shr (x : Reg) (y : Reg) : Statement (.shr x y) :=
  of_eq _ (encodeXYN_mask _ x y _) (by simp [tableRow, opcodeTable])

theorem subn (x : Reg) (y : Reg) : Statement (.subn x y) :=
  of_eq _ (encodeXYN_mask _ x y _) (by simp [tableRow, opcodeTable])

theorem shl (x : Reg) (y : Reg) : Statement (.shl x y) :=
  of_eq _ (encodeXYN_mask _ x y _) (by simp [tableRow, opcodeTable])

theorem sneReg (x : Reg) (y : Reg) : Statement (.sneReg x y) :=
  of_eq _ (encodeXYN_mask _ x y _) (by simp [tableRow, opcodeTable])

theorem ldI (nnn : Addr) : Statement (.ldI nnn) :=
  of_eq _ (encodeNNN_mask _ nnn) (by simp [tableRow, opcodeTable])

theorem jpV0 (nnn : Addr) : Statement (.jpV0 nnn) :=
  of_eq _ (encodeNNN_mask _ nnn) (by simp [tableRow, opcodeTable])

theorem rnd (x : Reg) (kk : Byte) : Statement (.rnd x kk) :=
  of_eq _ (encodeXKK_mask _ x kk) (by simp [tableRow, opcodeTable])

theorem drw (x : Reg) (y : Reg) (n : Nibble) : Statement (.drw x y n) :=
  of_eq _ (encodeXYN_mask_first _ x y n) (by simp [tableRow, opcodeTable])

theorem skp (x : Reg) : Statement (.skp x) :=
  of_eq _ (encodeXKK_mask_ends _ x _) (by simp [tableRow, opcodeTable])

theorem sknp (x : Reg) : Statement (.sknp x) :=
  of_eq _ (encodeXKK_mask_ends _ x _) (by simp [tableRow, opcodeTable])

theorem ldVDt (x : Reg) : Statement (.ldVDt x) :=
  of_eq _ (encodeXKK_mask_ends _ x _) (by simp [tableRow, opcodeTable])

theorem ldVK (x : Reg) : Statement (.ldVK x) :=
  of_eq _ (encodeXKK_mask_ends _ x _) (by simp [tableRow, opcodeTable])

theorem ldDtV (x : Reg) : Statement (.ldDtV x) :=
  of_eq _ (encodeXKK_mask_ends _ x _) (by simp [tableRow, opcodeTable])

theorem ldStV (x : Reg) : Statement (.ldStV x) :=
  of_eq _ (encodeXKK_mask_ends _ x _) (by simp [tableRow, opcodeTable])

theorem addI (x : Reg) : Statement (.addI x) :=
  of_eq _ (encodeXKK_mask_ends _ x _) (by simp [tableRow, opcodeTable])

theorem ldF (x : Reg) : Statement (.ldF x) :=
  of_eq _ (encodeXKK_mask_ends _ x _) (by simp [tableRow, opcodeTable])

theorem ldB (x : Reg) : Statement (.ldB x) :=
  of_eq _ (encodeXKK_mask_ends _ x _) (by simp [tableRow, opcodeTable])

theorem ldMemV (x : Reg) : Statement (.ldMemV x) :=
  of_eq _ (encodeXKK_mask_ends _ x _) (by simp [tableRow, opcodeTable])

theorem ldVMem (x : Reg) : Statement (.ldVMem x) :=
  of_eq _ (encodeXKK_mask_ends _ x _) (by simp [tableRow, opcodeTable])

end Sys2Proof.Laws.TableRow
end

