-- ==== Sys2Proof/Tests/Slice0.lean ====
section
/-! SUPPORT. The model's own tests. Every expected value is a word or a vector of the spec: decoding from 30_encoding.md
R76 and 95_test_vectors.md L1-4 and 2.1; single Steps from the vectors named at each test. -/

namespace Sys2Proof.Tests

open Sys2Proof.Machine

/-! ## Well-formedness: the two words SYS cannot have (R75) -/

theorem test_sys_0E0_ill_formed : (Instr.sys 0x0E0).wellFormed = false := by decide
theorem test_sys_0EE_ill_formed : (Instr.sys 0x0EE).wellFormed = false := by decide
theorem test_sys_0E1_well_formed : (Instr.sys 0x0E1).wellFormed = true := by decide
theorem test_cls_well_formed : Instr.cls.wellFormed = true := by decide

/-! ## Decoding, one word for each constructor -/

/-- The instruction of a word, if it decodes. -/
def decoded (w : Word) : Option Instr :=
  match decode w with
  | .ok i => some i
  | .error _ => none

theorem test_decode_sys : decoded 0x0123 = some (.sys 0x123) := by decide
theorem test_decode_sys_next_to_cls : decoded 0x00E1 = some (.sys 0x0E1) := by decide
theorem test_decode_cls : decoded 0x00E0 = some .cls := by decide
theorem test_decode_ret : decoded 0x00EE = some .ret := by decide
theorem test_decode_jp : decoded 0x1234 = some (.jp 0x234) := by decide
theorem test_decode_call : decoded 0x2ABC = some (.call 0xABC) := by decide
theorem test_decode_seImm : decoded 0x3A12 = some (.seImm 10 0x12) := by decide
theorem test_decode_sneImm : decoded 0x4A12 = some (.sneImm 10 0x12) := by decide
theorem test_decode_seReg : decoded 0x5120 = some (.seReg 1 2) := by decide
theorem test_decode_ldImm : decoded 0x6A5C = some (.ldImm 10 0x5C) := by decide
theorem test_decode_addImm : decoded 0x7AFF = some (.addImm 10 0xFF) := by decide
theorem test_decode_ldReg : decoded 0x8120 = some (.ldReg 1 2) := by decide
theorem test_decode_orReg : decoded 0x8AB1 = some (.orReg 10 11) := by decide
theorem test_decode_andReg : decoded 0x8AB2 = some (.andReg 10 11) := by decide
theorem test_decode_xorReg : decoded 0x8AB3 = some (.xorReg 10 11) := by decide
theorem test_decode_addReg : decoded 0x8AB4 = some (.addReg 10 11) := by decide
theorem test_decode_sub : decoded 0x8AB5 = some (.sub 10 11) := by decide
theorem test_decode_shr : decoded 0x8AB6 = some (.shr 10 11) := by decide
theorem test_decode_subn : decoded 0x8AB7 = some (.subn 10 11) := by decide
theorem test_decode_shl : decoded 0x8ABE = some (.shl 10 11) := by decide
theorem test_decode_sneReg : decoded 0x9AB0 = some (.sneReg 10 11) := by decide
theorem test_decode_ldI : decoded 0xA123 = some (.ldI 0x123) := by decide
theorem test_decode_jpV0 : decoded 0xB300 = some (.jpV0 0x300) := by decide
theorem test_decode_rnd : decoded 0xC5FF = some (.rnd 5 0xFF) := by decide
theorem test_decode_drw : decoded 0xD457 = some (.drw 4 5 7) := by decide
theorem test_decode_skp : decoded 0xE39E = some (.skp 3) := by decide
theorem test_decode_sknp : decoded 0xE3A1 = some (.sknp 3) := by decide
theorem test_decode_ldVDt : decoded 0xF507 = some (.ldVDt 5) := by decide
theorem test_decode_ldVK : decoded 0xF40A = some (.ldVK 4) := by decide
theorem test_decode_ldDtV : decoded 0xF515 = some (.ldDtV 5) := by decide
theorem test_decode_ldStV : decoded 0xF518 = some (.ldStV 5) := by decide
theorem test_decode_addI : decoded 0xF11E = some (.addI 1) := by decide
theorem test_decode_ldF : decoded 0xF329 = some (.ldF 3) := by decide
theorem test_decode_ldB : decoded 0xF433 = some (.ldB 4) := by decide
theorem test_decode_ldMemV : decoded 0xFA55 = some (.ldMemV 10) := by decide
theorem test_decode_ldVMem : decoded 0xF165 = some (.ldVMem 1) := by decide
/-- V-DE-10, 12, 13, 15, 18, 19, 21, 25, 26, 27: no match. -/
theorem test_decode_illegal :
    [0x5121, 0x8008, 0x800F, 0x9001, 0xE09F, 0xE1A2, 0xF008, 0xF166, 0xF0FF, 0xFFFF].all
      (fun w => decode w == .error (.noMatch w)) = true := by decide
/-- R53: the byte at the lower address is the high byte. -/
theorem test_decodeBytes_big_endian : decodeBytes [0x81, 0x20, 0x10] = .ok (.ldReg 1 2, [0x10]) := by decide
theorem test_decodeBytes_truncated : decodeBytes [0x81] = .error .truncated := by decide
theorem test_decodeTableWord_drw : decodeTableWord 16 0xD457 = some (.drw 4 5 7) := by decide
theorem test_decodeTableWord_illegal : decodeTableWord 16 0xF0FF = none := by decide

/-! ## Single Steps -/

/-- The next state, if there is one, passes the check. -/
def nextIs (o : Host.Outcome State Fault Refusal) (p : State → Bool) : Bool :=
  match o with
  | .next t => p t
  | _ => false

/-- The state after one Step on the word placed at PC passes the check. -/
def stepIs (s : State) (w : Nat) (p : State → Bool) : Bool := nextIs (step (s.withFetchWord 16 w)) p

/-- The reset state with two registers set. -/
def regs (x : Reg) (a : Byte) (y : Reg) (b : Byte) : State := (State.reset.setReg x a).setReg y b

/-- The reset state with I set. -/
def atI (a : Word) : State := { State.reset with i := a }

/-- MODE Faulted with this FAULT record, PC where it was. -/
def faultIs (cause : Cause) (pc word info : Word) (t : State) : Bool :=
  t.mode == .faulted && t.fault == ⟨cause, pc, word, info⟩ && t.pc == pc

-- Control flow: V-CF-1, 2, 6, 8, 9, 10, 11, 12, 13, 14, 15, 16, 17, 18, 19, 20, 7, 22
theorem test_sys : stepIs State.reset 0x0123 (fun t => t.pc == 0x202) = true := by decide
theorem test_sys_faults :
    stepIs { State.reset with config := { Config.default with sysFaults := true } } 0x0123
      (faultIs .decodeFailure 0x200 0x0123 0) = true := by decide
theorem test_jp : stepIs State.reset 0x1345 (fun t => t.pc == 0x345) = true := by decide
theorem test_jpV0 : stepIs (regs 0 0xFF 1 0) 0xBFFF (fun t => t.pc == 0x10FE) = true := by decide
theorem test_call_last_slot :
    stepIs { State.reset with sp := 15 } 0x2400
      (fun t => t.pc == 0x400 && t.sp == 16 && t.stack[15] == 0x202) = true := by decide
theorem test_call_overflow :
    stepIs { State.reset with sp := 16 } 0x2400 (faultIs .stackOverflow 0x200 0x2400 0x10) = true := by decide
theorem test_ret :
    stepIs { State.reset with sp := 1, stack := State.reset.stack.set 0 0x206 } 0x00EE
      (fun t => t.pc == 0x206 && t.sp == 0 && t.stack[0] == 0x206) = true := by decide
theorem test_ret_underflow : stepIs State.reset 0x00EE (faultIs .stackUnderflow 0x200 0x00EE 0) = true := by decide
theorem test_seImm_skips : stepIs (regs 10 0x12 0 0) 0x3A12 (fun t => t.pc == 0x204) = true := by decide
theorem test_seImm_goes_on : stepIs (regs 10 0x13 0 0) 0x3A12 (fun t => t.pc == 0x202) = true := by decide
theorem test_sneImm_goes_on : stepIs (regs 10 0x12 0 0) 0x4A12 (fun t => t.pc == 0x202) = true := by decide
theorem test_sneImm_skips : stepIs (regs 10 0x13 0 0) 0x4A12 (fun t => t.pc == 0x204) = true := by decide
theorem test_seReg_skips : stepIs (regs 10 7 11 7) 0x5AB0 (fun t => t.pc == 0x204) = true := by decide
theorem test_seReg_goes_on : stepIs (regs 10 7 11 8) 0x5AB0 (fun t => t.pc == 0x202) = true := by decide
theorem test_sneReg_goes_on : stepIs (regs 10 7 11 7) 0x9AB0 (fun t => t.pc == 0x202) = true := by decide
theorem test_sneReg_skips : stepIs (regs 10 7 11 8) 0x9AB0 (fun t => t.pc == 0x204) = true := by decide
theorem test_fetch_above_memory :
    nextIs (step { State.reset with pc := 0x10FE }) (faultIs .memoryOutOfBounds 0x10FE 0 0x10FE) = true := by decide
theorem test_fetch_FFF : nextIs (step { State.reset with pc := 0xFFF }) (faultIs .memoryOutOfBounds 0xFFF 0 0xFFF) = true := by
  decide
theorem test_fetch_last_word : stepIs { State.reset with pc := 0xFFE } 0x1234 (fun t => t.pc == 0x234) = true := by decide

-- Register and arithmetic: V-AR-1, 2, 3, 4 .. 7, 8, 24, 13, 25, 18, 27, 15, 16, 21, 28, 33, 34
theorem test_ldImm : stepIs State.reset 0x6A5C (fun t => t.reg 10 == 0x5C && t.pc == 0x202) = true := by decide
theorem test_addImm_no_flag : stepIs (regs 10 2 15 7) 0x7AFF (fun t => t.reg 10 == 1 && t.reg 15 == 7) = true := by decide
theorem test_addImm_vf : stepIs (regs 15 0x10 0 0) 0x7F05 (fun t => t.reg 15 == 0x15) = true := by decide
theorem test_ldReg : stepIs (regs 11 0x33 10 0) 0x8AB0 (fun t => t.reg 10 == 0x33) = true := by decide
theorem test_orReg : stepIs ((regs 10 0xF0 11 0x3C).setReg 15 5) 0x8AB1 (fun t => t.reg 10 == 0xFC && t.reg 15 == 5) = true := by
  decide
theorem test_andReg : stepIs ((regs 10 0xF0 11 0x3C).setReg 15 5) 0x8AB2 (fun t => t.reg 10 == 0x30 && t.reg 15 == 5) = true := by
  decide
theorem test_xorReg : stepIs ((regs 10 0xF0 11 0x3C).setReg 15 5) 0x8AB3 (fun t => t.reg 10 == 0xCC && t.reg 15 == 5) = true := by
  decide
theorem test_addReg_carry : stepIs (regs 10 0xFF 11 1) 0x8AB4 (fun t => t.reg 10 == 0 && t.reg 15 == 1) = true := by decide
theorem test_addReg_vf : stepIs (regs 15 0xFF 1 1) 0x8F14 (fun t => t.reg 15 == 1) = true := by decide
theorem test_sub_borrow : stepIs (regs 10 0x10 11 0x11) 0x8AB5 (fun t => t.reg 10 == 0xFF && t.reg 15 == 0) = true := by decide
theorem test_sub_vf : stepIs (regs 15 5 1 1) 0x8F15 (fun t => t.reg 15 == 1) = true := by decide
theorem test_shr : stepIs (regs 10 5 11 0xFF) 0x8AB6 (fun t => t.reg 10 == 2 && t.reg 15 == 1) = true := by decide
theorem test_shr_vf : stepIs (regs 15 2 0 0) 0x8F06 (fun t => t.reg 15 == 0) = true := by decide
theorem test_subn : stepIs (regs 10 0x10 11 0x30) 0x8AB7 (fun t => t.reg 10 == 0x20 && t.reg 15 == 1) = true := by decide
theorem test_subn_borrow : stepIs (regs 10 0x30 11 0x10) 0x8AB7 (fun t => t.reg 10 == 0xE0 && t.reg 15 == 0) = true := by decide
theorem test_shl : stepIs (regs 10 0x81 11 0xFF) 0x8ABE (fun t => t.reg 10 == 2 && t.reg 15 == 1) = true := by decide
theorem test_shl_vf : stepIs (regs 15 0x80 0 0) 0x8F0E (fun t => t.reg 15 == 1) = true := by decide
theorem test_rnd :
    stepIs { State.reset with randomInput := [0xAB, 0x5A] } 0xC50F
      (fun t => t.reg 5 == 0x0B && t.randomInput == [0x5A] && t.randomTaken == 1) = true := by decide
theorem test_rnd_mask_00 :
    stepIs { (regs 5 0x77 0 0) with randomInput := [0xAB] } 0xC500 (fun t => t.reg 5 == 0) = true := by decide

-- Address register, memory, timers, keys: V-MT-1, 3, 4, 6, 7, 8, 13, 16, 17, 18, 20, 23, 21, 22, 24, 28, 27, 29, 30, 33, 34
theorem test_ldI : stepIs State.reset 0xA123 (fun t => t.i == 0x123) = true := by decide
theorem test_addI_above_memory : stepIs ((atI 0xFFF).setReg 5 1) 0xF51E (fun t => t.i == 0x1000) = true := by decide
theorem test_addI_wraps : stepIs ((atI 0xFFFF).setReg 5 2) 0xF51E (fun t => t.i == 1) = true := by decide
theorem test_ldF : stepIs (regs 3 0x0F 0 0) 0xF329 (fun t => t.i == 0x09B) = true := by decide
theorem test_ldF_unmasked : stepIs (regs 3 0xFF 0 0) 0xF329 (fun t => t.i == 0x54B) = true := by decide
theorem test_ldB :
    stepIs ((atI 0x300).setReg 4 0xFF) 0xF433
      (fun t => t.peek 0x300 == 2 && t.peek 0x301 == 5 && t.peek 0x302 == 5 && t.i == 0x300) = true := by decide
theorem test_ldB_out_of_bounds :
    stepIs ((atI 0xFFE).setReg 4 0x7B) 0xF433
      (fun t => faultIs .memoryOutOfBounds 0x200 0xF433 0x1000 t && t.peek 0xFFE == 0) = true := by decide
theorem test_ldMemV :
    stepIs (((atI 0xFFD).setReg 0 1).setReg 2 3) 0xF255
      (fun t => t.peek 0xFFD == 1 && t.peek 0xFFE == 0 && t.peek 0xFFF == 3) = true := by decide
theorem test_ldMemV_out_of_bounds :
    stepIs (atI 0xFF1) 0xFF55 (faultIs .memoryOutOfBounds 0x200 0xFF55 0x1000) = true := by decide
theorem test_ldVMem :
    stepIs ((atI 0x300).pokeBytes 0x300 [0x11, 0x22, 0x33, 0x44]) 0xF265
      (fun t => t.reg 0 == 0x11 && t.reg 1 == 0x22 && t.reg 2 == 0x33 && t.reg 3 == 0) = true := by decide
theorem test_ldVMem_out_of_bounds :
    stepIs (atI 0x1000) 0xF065 (faultIs .memoryOutOfBounds 0x200 0xF065 0x1000) = true := by decide
theorem test_ldVDt : stepIs { State.reset with dt := 0x2A } 0xF507 (fun t => t.reg 5 == 0x2A) = true := by decide
theorem test_ldDtV : stepIs (regs 5 0x3C 0 0) 0xF515 (fun t => t.dt == 0x3C && t.st == 0) = true := by decide
theorem test_ldStV : stepIs (regs 5 0x3C 0 0) 0xF518 (fun t => t.st == 0x3C && t.dt == 0) = true := by decide
theorem test_skp : stepIs ((regs 3 7 0 0).setKey 7 true) 0xE39E (fun t => t.pc == 0x204) = true := by decide
theorem test_skp_invalid : stepIs (regs 3 0x10 0 0) 0xE39E (faultIs .invalidKey 0x200 0xE39E 0x10) = true := by decide
theorem test_sknp : stepIs (regs 3 7 0 0) 0xE3A1 (fun t => t.pc == 0x204) = true := by decide
theorem test_sknp_invalid : stepIs (regs 3 0xFF 0 0) 0xE3A1 (faultIs .invalidKey 0x200 0xE3A1 0xFF) = true := by decide
theorem test_ldVK_does_not_poll :
    stepIs (State.reset.setKey 5 true) 0xF40A
      (fun t => t.mode == .awaitingKey && t.waitReg == 4 && t.pc == 0x202 && t.reg 4 == 0) = true := by decide
/-- V-MT-33: keys 2, 9 and C are pressed; the lowest wins. -/
theorem test_poll_lowest :
    nextIs (step { (((State.reset.setKey 0xC true).setKey 9 true).setKey 2 true) with mode := .awaitingKey, waitReg := 4 })
      (fun t => t.reg 4 == 2 && t.mode == .running && t.pc == 0x200) = true := by decide
theorem test_poll_no_key :
    nextIs (step { State.reset with mode := .awaitingKey, waitReg := 4 }) (fun t => t.mode == .awaitingKey) = true := by decide

-- Display: V-DR-1, 2, 3, 4, 6, 9, 10, 12
theorem test_cls :
    stepIs { State.reset with fb := Display.set State.reset.fb 5 5 true } 0x00E0 (fun t => t.pixel 5 5 == false) = true := by decide
/-- V-DR-9: a later pixel that does not collide leaves the flag. -/
theorem test_drw_collision_kept :
    stepIs { ((atI 0x300).pokeBytes 0x300 [0xC0, 0xC0]) with fb := Display.set State.reset.fb 0 0 true } 0xD122
      (fun t => t.pixel 0 0 == false && t.pixel 1 0 && t.pixel 0 1 && t.pixel 1 1 && t.reg 15 == 1) = true := by decide
/-- V-DR-4: columns 64 and beyond are dropped, not wrapped. -/
theorem test_drw_clips :
    stepIs (((atI 0x300).poke 0x300 0xFF).setReg 1 0x3E) 0xD121
      (fun t => t.pixel 62 0 && t.pixel 63 0 && !t.pixel 0 0 && !t.pixel 0 1 && t.reg 15 == 0) = true := by decide

-- Faulted, Tick, Load, Reset: V-FT-3, V-TK-4, V-RS-2, V-RS-5, V-RS-7
theorem test_faulted_step : nextIs (step { State.reset with mode := .faulted }) (fun t => t.pc == 0x200) = true := by decide
theorem test_tick :
    nextIs ({ State.reset with dt := 5, st := 0, mode := .awaitingKey }.command .tick) (fun t => t.dt == 4 && t.st == 0) = true := by
  decide
theorem test_load :
    nextIs ({ State.reset with pc := 0x345 }.command (.load [0x12, 0x00]))
      (fun t => t.pc == 0x200 && t.peek 0x200 == 0x12 && t.peek 0x201 == 0) = true := by decide
theorem test_load_too_large :
    nextIs ({ State.reset with pc := 0x345 }.command (.load (List.replicate 0xE01 0)))
      (fun t => t.mode == .faulted && t.fault == ⟨.romTooLarge, 0x200, 0, 0xE01⟩ && t.pc == 0x345) = true := by
  simp only [State.command, State.load, List.length_replicate]
  decide
theorem test_reset_keeps_keys :
    nextIs (((regs 0 5 1 0).setKey 2 true).command .reset) (fun t => t.reg 0 == 0 && t.key 2 && t.pc == 0x200) = true := by decide

/-! ## Witnesses: for every statement with hypotheses, states and operands that meet all of them, at the edges of their
ranges -/

/-- A core with a display of one pixel: the invariant can be decided on it. -/
def small : State := State.resetFor { Config.default with displayW := ⟨1, by decide⟩, displayH := ⟨1, by decide⟩ }

theorem witness_DecodeOfEncode : (Instr.sys 0x0E1).wellFormed = true := by decide
theorem witness_EncodeOfDecode : decode 0xFFFF = .error (.noMatch 0xFFFF) ∧ decode 0xFF65 = .ok (.ldVMem 15) := ⟨rfl, rfl⟩
theorem witness_MostSpecificPatternWins :
    decode 0x00E0 = .ok .cls ∧ (tableRow (.sys 0)).accepts 0x00E0 = true ∧ tableRow (.sys 0) ≠ tableRow .cls := by decide
theorem witness_StepRunsTheDecodedInstruction :
    let s := { State.reset with pc := 0xFFE }.pokeBytes 0xFFE [0x12, 0x34]
    s.mode = .running ∧ s.pc.toNat ≤ 0xFFE ∧
      decodeBytes [s.peek s.pc.toNat, s.peek (s.pc.toNat + 1)] = .ok (.jp 0x234, []) := ⟨rfl, by decide, rfl⟩
theorem witness_FetchAboveMemoryFaults :
    { State.reset with pc := 0xFFF }.mode = .running ∧ { State.reset with pc := 0xFFF }.pc.toNat > 0xFFE := by decide
theorem witness_IllegalWordFaults :
    let s := { State.reset with pc := 0xFFE }.pokeBytes 0xFFE [0xF0, 0xFF]
    s.mode = .running ∧ s.pc.toNat ≤ 0xFFE ∧
      decodeBytes [s.peek s.pc.toNat, s.peek (s.pc.toNat + 1)] = .error (.noMatch 0xF0FF) := ⟨rfl, by decide, rfl⟩
theorem witness_KeyWaitPoll_no_key :
    let s := { State.reset with mode := .awaitingKey }
    s.mode = .awaitingKey ∧ ∀ k : Reg, s.key k = false := by decide
theorem witness_KeyWaitPoll_highest_key :
    let s := { State.reset.setKey 15 true with mode := .awaitingKey }
    s.mode = .awaitingKey ∧ s.key 15 = true ∧ ∀ j : Reg, j < 15 → s.key j = false := by decide
theorem witness_KeyWaitPoll_lowest_key :
    let s := { (State.reset.setKey 15 true).setKey 0 true with mode := .awaitingKey, waitReg := 15 }
    s.mode = .awaitingKey ∧ s.key 0 = true ∧ ∀ j : Reg, j < 0 → s.key j = false := by decide
theorem witness_FaultsExactly_fault :
    let s := { State.reset with sp := 16 }.pokeBytes 0x200 [0x24, 0x00]
    s.mode = .running ∧ s.sp.toNat ≤ 16 ∧ specFault s = some ⟨.stackOverflow, 0x200, 0x2400, 16⟩ := by decide
theorem witness_FaultsExactly_none :
    State.reset.mode = .running ∧ State.reset.sp.toNat ≤ 16 ∧ specFault State.reset = none := by decide
theorem witness_FaultsArePrecise :
    let s := { State.reset with pc := 0xFFF }
    s.mode ≠ .faulted ∧ step s = .next s.raiseFetch ∧ s.raiseFetch.mode = .faulted := ⟨by decide, rfl, rfl⟩
theorem witness_OnlyResetLeavesFaulted :
    let s := { State.reset with mode := .faulted }
    s.mode = .faulted ∧ (List.replicate 0xE00 (0xAA : Byte)).length ≤ 0xE00 ∧ Command.tick ≠ .reset ∧
      s.command .tick = .next s.tick ∧ (List.replicate 0xE01 (0xAA : Byte)).length > 0xE00 := by
  refine ⟨rfl, ?_, by decide, rfl, ?_⟩ <;> rw [List.length_replicate]
  decide
theorem witness_StepKeepsTheInvariant : small.Inv ∧ step small = .next small.advance := ⟨by decide, rfl⟩
theorem witness_StepKeepsTheInvariant_edges :
    let s := { small with sp := 16, pc := 0x10FE, mode := .faulted, fault := ⟨.invalidKey, 0, 0, 0⟩ }
    s.Inv ∧ step s = .next s := ⟨by decide, rfl⟩
theorem witness_StepAlwaysAnswers : { State.reset with sp := 16 }.sp.toNat ≤ 16 := by decide
theorem witness_EveryCommandSequenceKeepsTheInvariant :
    small.Inv ∧ small.commands [.tick, .setKey 3 true, .step 0] = .next ({ (small.tick.setKey 3 true) with randomInput := [0] }).advance :=
  ⟨by decide, rfl⟩
theorem witness_IndistinguishableStatesAreEqual :
    let s := small.poke 0xFFF 1
    Memory.wf s.config s.mem = true ∧ Display.shaped s.config.displayW s.config.displayH s.fb = true ∧
      ∀ f, SameAt s s f := ⟨by decide, by decide, fun f => by cases f <;> rfl⟩
theorem witness_StoredByteReadsBack : 0xFFF ≤ 0xFFF ∧ Memory.wf State.reset.config State.reset.mem = true := by decide
theorem witness_LoadCopiesTheProgram : (List.replicate 0xE00 (0xAA : Byte)).length ≤ 0xE00 := by
  rw [List.length_replicate]
theorem witness_OversizeLoadFaults : (List.replicate 0xE01 (0 : Byte)).length > 0xE00 := by
  rw [List.length_replicate]; decide
theorem witness_SetKeyChangesOnlyThatKey :
    let t := { regs 0 15 1 0 with mode := .awaitingKey }.setKey 15 true
    (t.reg 0).toNat = (15 : Reg).val ∧ t.mode = .awaitingKey := by decide
theorem witness_SysIsANoOp : State.reset.config.sysFaults = false ∧ (0x0E1 : Addr) ≠ 0x0E0 ∧ (0x0E1 : Addr) ≠ 0x0EE := by decide
theorem witness_SysFaultsUnderItsParameter :
    { State.reset with config := { Config.default with sysFaults := true } }.config.sysFaults = true := rfl
theorem witness_Call_last_slot : { State.reset with sp := 15 }.sp.toNat < 16 := by decide
theorem witness_Call_full : { State.reset with sp := 16 }.sp.toNat = 16 := by decide
theorem witness_Return_one : 0 < { State.reset with sp := 1 }.sp.toNat ∧ { State.reset with sp := 1 }.sp.toNat ≤ 16 := by decide
theorem witness_Return_full : 0 < { State.reset with sp := 16 }.sp.toNat ∧ { State.reset with sp := 16 }.sp.toNat ≤ 16 := by
  decide
theorem witness_Return_empty : State.reset.sp.toNat = 0 := by decide
theorem witness_NoStackBeyondSixteenSlots :
    { State.reset with sp := 17 }.sp.toNat > 16 ∧ { State.reset with sp := 31 }.sp.toNat > 16 := by decide
theorem witness_ReturnGoesBackToTheCaller :
    let t := { State.reset with sp := 1, pc := 0x400, stack := State.reset.stack.set 0 0x202 }
    State.reset.sp.toNat < 16 ∧ exec (.call 0x400) State.reset = .next t ∧ t.sp = t.sp ∧ t.stack = t.stack :=
  ⟨by decide, rfl, rfl, rfl⟩
theorem witness_arithmetic_not_vf : (14 : Reg) ≠ 15 := by decide
theorem witness_Rnd_supplied : { State.reset with randomInput := [0xAB] }.randomInput = 0xAB :: [] := rfl
theorem witness_Rnd_free : State.reset.randomInput = [] := rfl
theorem witness_GlyphAddressOfADigit : State.reset.config.fontDigitMask = false := rfl
theorem witness_GlyphAddressUnderItsParameter :
    { State.reset with config := { Config.default with fontDigitMask := true } }.config.fontDigitMask = true := rfl
theorem witness_DecimalDigits_last : (atI 0xFFD).i.toNat + 2 ≤ 0xFFF := by decide
theorem witness_DecimalDigits_out : (atI 0xFFE).i.toNat + 2 > 0xFFF := by decide
theorem witness_Registers_last : (atI 0xFF0).i.toNat + (15 : Reg).val ≤ 0xFFF ∧ (15 : Reg) ≤ 15 := by decide
theorem witness_Registers_out : (atI 0xFF1).i.toNat + (15 : Reg).val > 0xFFF := by decide
theorem witness_Registers_one : (atI 0xFFF).i.toNat + (0 : Reg).val ≤ 0xFFF ∧ (0 : Reg) ≤ 0 := by decide
theorem witness_StoredCodeIsFetched :
    let s := { regs 0 0x12 1 0x08 with i := 0xFFE }
    s.i.toNat + (1 : Reg).val ≤ 0xFFF ∧ exec (.ldMemV 1) s = .next (s.advance.pokeBytes 0xFFE [0x12, 0x08]) ∧
      (1 : Reg).val = (0 : Reg).val + 1 ∧ (1 : Reg) ≤ 1 ∧ (s.advance.pokeBytes 0xFFE [0x12, 0x08]).mode = .running ∧
      decode (s.reg 0 ++ s.reg 1) = .ok (.jp 0x208) := ⟨by decide, rfl, rfl, by decide, rfl, rfl⟩
theorem witness_KeySkips_key_F : ((regs 3 15 0 0).reg 3).toNat = (15 : Reg).val := by decide
theorem witness_KeySkips_invalid : ((regs 3 16 0 0).reg 3).toNat > 0xF := by decide
theorem witness_KeyWaitEnds_key :
    let s := { State.reset.setKey 0 true with mode := .awaitingKey }
    s.mode = .awaitingKey ∧ nextIs (s.command (.step 0)) (fun t => t.mode != .awaitingKey) = true ∧ s.key 0 = true := by decide
theorem witness_KeyWaitEnds_reset :
    nextIs ({ State.reset with mode := .awaitingKey }.command .reset) (fun t => t.mode != .awaitingKey) = true := by decide
theorem witness_KeyWaitEnds_oversize_load :
    nextIs ({ State.reset with mode := .awaitingKey }.command (.load (List.replicate 0xE01 0))) (fun t => t.mode == .faulted) = true := by
  simp only [State.command, State.load, List.length_replicate]
  decide
theorem witness_ClearScreen : onDisplay State.reset 63 31 := by decide
theorem witness_Draw_last_bytes :
    let s := { small with i := 0xFF1 }
    Display.shaped s.config.displayW s.config.displayH s.fb = true ∧ s.i.toNat + (15 : Nibble).toNat - 1 ≤ 0xFFF := by decide
theorem witness_Draw_no_byte :
    let s := { small with i := 0x1000 }
    Display.shaped s.config.displayW s.config.displayH s.fb = true ∧ (0 : Nibble).toNat = 0 := by decide
theorem witness_Draw_out :
    let s := { small with i := 0xFF2 }
    Display.shaped s.config.displayW s.config.displayH s.fb = true ∧ (15 : Nibble).toNat > 0 ∧
      s.i.toNat + (15 : Nibble).toNat - 1 > 0xFFF := by decide
theorem witness_Draw_collides :
    let s := { (small.poke 0x300 0x80) with i := 0x300, fb := [[true]] }
    onDisplay s 0 0 ∧ spriteCovers s 0x300 0 0 1 0 0 = true ∧ s.pixel 0 0 = true := by decide
theorem witness_Draw_nothing_lit : ∀ px py, small.pixel px py = false := fun px py => by
  rcases px with _ | px <;> rcases py with _ | py <;> rfl
theorem witness_DoubleDrawRestores :
    let s := { (small.poke 0x300 0x80) with i := 0x300 }
    let t := { s with fb := [[true]], pc := 0x202, v := s.v.set 15 0 }
    Display.shaped s.config.displayW s.config.displayH s.fb = true ∧ s.i.toNat + (1 : Nibble).toNat - 1 ≤ 0xFFF ∧
      exec (.drw 1 2 1) s = .next t ∧ t.reg 1 = s.reg 1 ∧ t.reg 2 = s.reg 2 ∧
      (∀ k, k < (1 : Nibble).toNat → t.peek (s.i.toNat + k) = s.peek (s.i.toNat + k)) ∧
      onDisplay s 0 0 ∧ spriteCovers s 0x300 0 0 1 0 0 = true ∧ s.pixel 0 0 = false :=
  ⟨by decide, by decide, rfl, rfl, rfl, fun _ _ => rfl, by decide, by decide, rfl⟩
theorem witness_OnlyListedInstructionsWriteV :
    nextIs (exec (.addReg 0 1) (regs 0 0xFF 1 1)) (fun t => t.reg 0 != 0xFF && t.reg 15 != 0) = true := by decide
theorem witness_OnlyListedInstructionsWriteV_poll :
    let s := { State.reset.setKey 3 true with mode := .awaitingKey }
    s.mode = .awaitingKey ∧ nextIs (step s) (fun t => t.reg 0 != s.reg 0) = true := by decide
theorem witness_MemoryWrittenOnlyByStoresAndLoad :
    nextIs (exec (.ldB 0) (atI 0xFFD |>.setReg 0 9)) (fun t => t.peek 0xFFF != State.reset.peek 0xFFF) = true ∧
    nextIs (State.reset.command (.load [1])) (fun t => t.peek 0x200 != State.reset.peek 0x200) = true := by decide
theorem witness_DisplayWrittenOnlyByClsAndDrw : nextIs (exec .cls { small with fb := [[true]] }) (fun t => t.fb != [[true]]) = true := by
  decide
theorem witness_OtherStateHasItsOwnWriters :
    nextIs (exec (.ldI 5) State.reset) (fun t => t.i != 0) = true ∧
    nextIs (exec (.call 5) State.reset) (fun t => t.sp != 0 && t.stack != State.reset.stack) = true ∧
    nextIs (exec (.ldDtV 0) (regs 0 5 1 0)) (fun t => t.dt != 0) = true ∧
    nextIs (exec (.ldStV 0) (regs 0 5 1 0)) (fun t => t.st != 0) = true ∧
    nextIs (exec (.ldVK 5) State.reset) (fun t => t.waitReg != 0 && t.mode != .running) = true ∧
    nextIs (exec (.rnd 5 0) State.reset) (fun t => t.randomTaken != 0) = true := by decide
theorem witness_OtherInstructionsIgnoreTheKeys : (∀ x, Instr.cls ≠ .skp x) ∧ (∀ x, Instr.cls ≠ .sknp x) := by
  constructor <;> intro x <;> nofun
theorem witness_NoInstructionReadsSt : (∀ x, Instr.cls ≠ .ldStV x) ∧ (∃ x, Instr.ldStV 3 = .ldStV x) := ⟨nofun, 3, rfl⟩
theorem witness_TickCommutesWithInstructions :
    (∀ x, Instr.addI 0 ≠ .ldVDt x) ∧ (∀ x, Instr.addI 0 ≠ .ldDtV x) ∧ (∀ x, Instr.addI 0 ≠ .ldStV x) := ⟨nofun, nofun, nofun⟩

end Sys2Proof.Tests
end

section
/-! Which fields of the state an instruction can write: one inversion of `exec` over all the instructions, from which the
statements about the writers of a place follow. -/

namespace Sys2Proof.Machine

/-! ## The fields an instruction writes -/

/-- `ExecWrites s i t`: `t` differs from `s` at most in the fields that `i` may write, or is `s` with a fault taken. One
constructor for each set of fields, with the instructions that may write them; V and PC alone are open to any instruction. -/
inductive ExecWrites (s : State) : Instr → State → Prop
  | raise (i : Instr) (cause : Cause) (word info : Word) : ExecWrites s i (s.raise cause word info)
  | registers (i : Instr) (v : Vector Byte 16) (pc : Word) : ExecWrites s i { s with v := v, pc := pc }
  | display (i : Instr) (v : Vector Byte 16) (pc : Word) (fb : List (List Bool))
      (hi : i = .cls ∨ ∃ x y n, i = .drw x y n) : ExecWrites s i { s with v := v, pc := pc, fb := fb }
  | store (i : Instr) (pc : Word) (mem : List Host.Cell) (hi : (∃ x, i = .ldB x) ∨ ∃ x, i = .ldMemV x) :
      ExecWrites s i { s with pc := pc, mem := mem }
  | address (i : Instr) (pc a : Word) (hi : (∃ nnn, i = .ldI nnn) ∨ (∃ x, i = .addI x) ∨ ∃ x, i = .ldF x) :
      ExecWrites s i { s with pc := pc, i := a }
  | call (nnn : Addr) (pc : Word) (sp : BitVec 5) (stack : Vector Word 16) :
      ExecWrites s (.call nnn) { s with pc := pc, sp := sp, stack := stack }
  | ret (pc : Word) (sp : BitVec 5) : ExecWrites s .ret { s with pc := pc, sp := sp }
  | delayTimer (x : Reg) (pc : Word) (dt : Byte) : ExecWrites s (.ldDtV x) { s with pc := pc, dt := dt }
  | soundTimer (x : Reg) (pc : Word) (st : Byte) : ExecWrites s (.ldStV x) { s with pc := pc, st := st }
  | keyWait (x : Reg) (pc : Word) :
      ExecWrites s (.ldVK x) { s with pc := pc, mode := .awaitingKey, waitReg := x }
  | random (x : Reg) (kk : Byte) (v : Vector Byte 16) (pc : Word) (input : List Byte) (taken : Nat) :
      ExecWrites s (.rnd x kk) { s with v := v, pc := pc, randomInput := input, randomTaken := taken }

namespace ExecWrites

variable {s t : State}

/-! ## The shared operations -/

theorem skipIf (i : Instr) (c : Bool) : ExecWrites s i (s.advance.skipIf c) := by
  rw [skipIf_eq]
  exact .registers _ _ _

theorem loadRegs (i : Instr) (k : Nat) (bs : List Byte) : ExecWrites s i (s.advance.loadRegs k bs) := by
  rw [loadRegs_frame]
  exact .registers _ _ _

theorem writeBytes {i : Instr} {base : Nat} {bs : List Byte} (hi : (∃ x, i = .ldB x) ∨ ∃ x, i = .ldMemV x)
    (h : s.advance.writeBytes base bs = some t) : ExecWrites s i t := by
  obtain ⟨-, rfl⟩ := (writeBytes_eq_some _ _ _ _).1 h
  rw [pokeBytes_frame]
  exact .store _ _ _ hi

/-! ## The instructions with a form of their own -/

theorem of_execSys {nnn : Addr} (h : execSys nnn s = .next t) : ExecWrites s (.sys nnn) t := by
  unfold execSys at h
  split at h <;> cases h
  · exact .raise _ _ _ _
  · exact .registers _ _ _

theorem of_execCall {nnn : Addr} (h : execCall nnn s = .next t) : ExecWrites s (.call nnn) t := by
  unfold execCall at h
  split at h
  · cases h
    exact .raise _ _ _ _
  · split at h <;> cases h
    next hpush =>
      obtain ⟨-, rfl⟩ := (push_eq_some _ _ _).1 hpush
      exact .call _ _ _ _

theorem of_execRet (h : execRet s = .next t) : ExecWrites s .ret t := by
  unfold execRet at h
  split at h
  · cases h
    exact .raise _ _ _ _
  · split at h <;> cases h
    next hpop =>
      obtain ⟨-, rfl⟩ := (pop_eq_some _ _).1 hpop
      exact .ret _ _

theorem of_execRnd {x : Reg} {kk : Byte} (h : execRnd x kk s = .next t) : ExecWrites s (.rnd x kk) t := by
  cases h
  obtain ⟨b, rest, -, htake⟩ | ⟨-, htake⟩ := takeRandom_cases s.advance <;> rw [htake] <;> exact .random _ _ _ _ _ _

theorem of_execDrw {x y : Reg} {n : Nibble} (h : execDrw x y n s = .next t) : ExecWrites s (.drw x y n) t := by
  unfold execDrw at h
  split at h <;> cases h
  · exact .display _ _ _ _ (.inr ⟨x, y, n, rfl⟩)
  · exact .raise _ _ _ _

end ExecWrites

/-! ## All instructions -/

/-- What every instruction can write, where it answers a next state. -/
theorem execWrites_of_exec {i : Instr} {s t : State} (h : exec i s = .next t) : ExecWrites s i t := by
  cases i with
  | sys => exact .of_execSys h
  | cls => cases h; exact .display _ _ _ _ (.inl rfl)
  | ret => exact .of_execRet h
  | call => exact .of_execCall h
  | jp | jpV0 => cases h; exact .registers _ _ _
  | seImm | sneImm | seReg | sneReg => cases h; exact .skipIf _ _
  | ldImm | addImm | ldReg | orReg | andReg | xorReg | addReg | sub | shr | subn | shl | ldVDt =>
    cases h; exact .registers _ _ _
  | ldI nnn => cases h; exact .address _ _ _ (.inl ⟨nnn, rfl⟩)
  | addI x => cases h; exact .address _ _ _ (.inr (.inl ⟨x, rfl⟩))
  | ldF x => cases h; exact .address _ _ _ (.inr (.inr ⟨x, rfl⟩))
  | rnd => exact .of_execRnd h
  | drw => exact .of_execDrw h
  | skp | sknp =>
    simp only [exec, execSkp, execSknp] at h
    split at h <;> cases h
    · exact .skipIf _ _
    · exact .raise _ _ _ _
  | ldVK => cases h; exact .keyWait _ _
  | ldDtV => cases h; exact .delayTimer _ _ _
  | ldStV => cases h; exact .soundTimer _ _ _
  | ldB | ldMemV =>
    simp only [exec, execLdB, execLdMemV] at h
    split at h <;> cases h
    · next hwrite => exact .writeBytes (by simp) hwrite
    · exact .raise _ _ _ _
  | ldVMem =>
    simp only [exec, execLdVMem] at h
    split at h <;> cases h
    · exact .loadRegs _ _ _
    · exact .raise _ _ _ _

/-- Settles O57: in each case of `ExecWrites` the fields written are those of the case's own instructions, and every other
field is the same by the form of the next state. -/
theorem otherStateHasItsOwnWriters : Obligations.OtherStateHasItsOwnWriters := by
  intro i s t h
  cases execWrites_of_exec h with
  | raise | registers | display | store => simp
  | address _ _ _ hi => simp [hi]
  | call | ret | delayTimer | soundTimer | keyWait | random => simp

end Sys2Proof.Machine
end

section
/-! The invariant: every shared operation keeps it, so every instruction, every Step and every command does. -/

namespace Sys2Proof.Machine

/-! ## Bounds of the addresses PC can take (R25) -/

theorem toNat_addressOf_le (nnn : Addr) : (addressOf nnn).toNat ≤ 0xFFF := by
  unfold addressOf
  bv_omega

theorem toNat_addressOf_add_wordOf_le (nnn : Addr) (b : Byte) : (addressOf nnn + wordOf b).toNat ≤ 0x10FE := by
  unfold addressOf wordOf
  bv_omega

/-! ## What keeps the invariant -/

namespace State.Inv

variable {s t : State}

theorem display_shaped (hs : s.Inv) : Display.shaped s.config.displayW s.config.displayH s.fb = true := by
  obtain ⟨-, hfb, -⟩ := hs
  exact hfb

theorem sp_le (hs : s.Inv) : s.sp.toNat ≤ 16 := by
  obtain ⟨-, -, hsp, -⟩ := hs
  exact hsp

theorem pc_le (hs : s.Inv) : s.pc.toNat ≤ 0x10FE := by
  obtain ⟨-, -, -, hpc, -⟩ := hs
  exact hpc

/-- The invariant says nothing of V, I, the timers, WAIT_REG and the inputs, and of PC only its bound. -/
theorem free (hs : s.Inv) {v : Vector Byte 16} {i pc : Word} {dt st : Byte} {waitReg : Reg} {keys : Vector Bool 16}
    {input : List Byte} {taken : Nat} (hpc : pc.toNat ≤ 0x10FE) :
    State.Inv { s with v := v, i := i, pc := pc, dt := dt, st := st, waitReg := waitReg, keys := keys,
                       randomInput := input, randomTaken := taken } := by
  obtain ⟨hmem, hfb, hsp, -, hstack, hmode⟩ := hs
  exact ⟨hmem, hfb, hsp, hpc, hstack, hmode⟩

/-- Fault entry (R164): the record holds a cause, and the mode is Faulted. -/
theorem raise (hs : s.Inv) {cause : Cause} {word info : Word} (hcause : cause ≠ .none) :
    (s.raise cause word info).Inv := by
  obtain ⟨hmem, hfb, hsp, hpc, hstack, -⟩ := hs
  exact ⟨hmem, hfb, hsp, hpc, hstack, iff_of_true rfl hcause⟩

theorem setMode (hs : s.Inv) {mode : Mode} (hold : s.mode ≠ .faulted) (hnew : mode ≠ .faulted) :
    State.Inv { s with mode := mode } := by
  obtain ⟨hmem, hfb, hsp, hpc, hstack, hmode⟩ := hs
  exact ⟨hmem, hfb, hsp, hpc, hstack, (iff_of_false hnew hold).trans hmode⟩

theorem setDisplay (hs : s.Inv) {fb : List (List Bool)}
    (hfb : Display.shaped s.config.displayW s.config.displayH fb = true) : State.Inv { s with fb := fb } := by
  obtain ⟨hmem, -, hsp, hpc, hstack, hmode⟩ := hs
  exact ⟨hmem, hfb, hsp, hpc, hstack, hmode⟩

theorem pokeBytes (hs : s.Inv) {base : Nat} {bs : List Byte} (hrange : bs.length = 0 ∨ base + bs.length - 1 ≤ 0xFFF) :
    (s.pokeBytes base bs).Inv := by
  obtain ⟨hmem, hrest⟩ := hs
  have hwf := wf_pokeBytes s base bs hrange hmem
  rw [pokeBytes_frame] at hwf ⊢
  exact ⟨hwf, hrest⟩

theorem writeBytes (hs : s.Inv) {base : Nat} {bs : List Byte} (h : s.writeBytes base bs = some t) : t.Inv := by
  obtain ⟨hrange, rfl⟩ := (writeBytes_eq_some _ _ _ _).1 h
  exact hs.pokeBytes hrange

/-- A push of an address that a later RET may jump to (R97). -/
theorem push (hs : s.Inv) {w : Word} (hw : w.toNat ≤ 0x1000) (h : s.push w = some t) : t.Inv := by
  obtain ⟨hslot, rfl⟩ := (push_eq_some _ _ _).1 h
  obtain ⟨hmem, hfb, -, hpc, hstack, hmode⟩ := hs
  refine ⟨hmem, hfb, ?_, hpc, fun k => ?_, hmode⟩
  · show (s.sp + 1).toNat ≤ 16
    bv_omega
  · simp only [Fin.getElem_fin, Vector.getElem_set]
    split
    · exact hw
    · exact hstack k

theorem pop (hs : s.Inv) (h : s.pop = some t) : t.Inv := by
  obtain ⟨hslot, rfl⟩ := (pop_eq_some _ _).1 h
  obtain ⟨hmem, hfb, -, -, hstack, hmode⟩ := hs
  have hpc := hstack ⟨_, hslot⟩
  exact ⟨hmem, hfb, hslot.le, hpc.trans (by decide), hstack, hmode⟩

/-- A jump inside the range of PC (R25). -/
theorem setPc (hs : s.Inv) {pc : Word} (hpc : pc.toNat ≤ 0x10FE) : State.Inv { s with pc := pc } := hs.free hpc

theorem setReg (hs : s.Inv) {r : Reg} {b : Byte} : (s.setReg r b).Inv := hs.free hs.pc_le

theorem loadRegs (hs : s.Inv) {k : Nat} {bs : List Byte} : (s.loadRegs k bs).Inv := by
  rw [loadRegs_frame]
  exact hs.free hs.pc_le

theorem takeRandom (hs : s.Inv) : s.takeRandom.2.Inv := by
  obtain ⟨b, rest, -, htake⟩ | ⟨-, htake⟩ := takeRandom_cases s <;> rw [htake] <;> exact hs.free hs.pc_le

theorem keyWaitPoll (hs : s.Inv) (hmode : s.mode = .awaitingKey) : s.keyWaitPoll.Inv := by
  unfold State.keyWaitPoll
  split
  · exact hs.setReg.setMode (by simp [hmode]) nofun
  · exact hs

/-! ## An instruction fetched inside memory (R90) -/

section Fetched

variable (hs : s.Inv) (hfetch : s.pc.toNat ≤ 0xFFE)
include hs hfetch

theorem advance : s.advance.Inv := hs.setPc (by bv_omega)

theorem skipIf (c : Bool) : (s.advance.skipIf c).Inv := by
  rw [skipIf_eq]
  refine hs.setPc ?_
  split
  · show (s.pc + 2 + 2).toNat ≤ 0x10FE
    bv_omega
  · exact (hs.advance hfetch).pc_le

theorem of_execSys {nnn : Addr} (h : execSys nnn s = .next t) : t.Inv := by
  unfold execSys at h
  split at h <;> cases h
  · exact hs.raise nofun
  · exact hs.advance hfetch

theorem of_execCall {nnn : Addr} (h : execCall nnn s = .next t) : t.Inv := by
  unfold execCall at h
  split at h
  · cases h
    exact hs.raise nofun
  · split at h <;> cases h
    next hpush =>
      have hsaved : s.advance.pc.toNat ≤ 0x1000 := by rw [advance_pc]; bv_omega
      exact ((hs.advance hfetch).push hsaved hpush).setPc ((toNat_addressOf_le nnn).trans (by decide))

theorem of_execRet (h : execRet s = .next t) : t.Inv := by
  unfold execRet at h
  split at h
  · cases h
    exact hs.raise nofun
  · split at h <;> cases h
    next hpop => exact (hs.advance hfetch).pop hpop

theorem of_execDrw {x y : Reg} {n : Nibble} (h : execDrw x y n s = .next t) : t.Inv := by
  unfold execDrw at h
  split at h <;> cases h
  next bytes _ =>
    have hdrawn := (drawRows_spec s.config (s.reg x).toNat (s.reg y).toNat bytes ⟨s.fb, false⟩ hs.display_shaped).1
    exact (hs.setDisplay hdrawn).free (hs.advance hfetch).pc_le
  · exact hs.raise nofun

/-- Every instruction that the block executes keeps the invariant. -/
theorem of_exec {i : Instr} (hrun : s.mode = .running) (h : exec i s = .next t) : t.Inv := by
  have hadv := hs.advance hfetch
  have hpc : (s.pc + 2).toNat ≤ 0x10FE := by bv_omega
  cases i with
  | sys => exact hs.of_execSys hfetch h
  | call => exact hs.of_execCall hfetch h
  | ret => exact hs.of_execRet hfetch h
  | drw => exact hs.of_execDrw hfetch h
  | jp nnn => cases h; exact hs.setPc ((toNat_addressOf_le nnn).trans (by decide))
  | jpV0 nnn => cases h; exact hs.setPc (toNat_addressOf_add_wordOf_le nnn _)
  | cls => cases h; exact hadv.setDisplay (shaped_blank _ _)
  | seImm | sneImm | seReg | sneReg => cases h; exact hs.skipIf hfetch _
  | ldImm | addImm | ldReg | orReg | andReg | xorReg | addReg | sub | shr | subn | shl | ldVDt | ldI | addI | ldF | ldDtV
  | ldStV => cases h; exact hs.free hpc
  | rnd => cases h; exact hadv.takeRandom.setReg
  | ldVK => cases h; exact (hs.free hpc).setMode (by simp [hrun]) nofun
  | skp | sknp =>
    simp only [exec, execSkp, execSknp] at h
    split at h <;> cases h
    · exact hs.skipIf hfetch _
    · exact hs.raise nofun
  | ldB | ldMemV =>
    simp only [exec, execLdB, execLdMemV] at h
    split at h <;> cases h
    next hwrite => exact hadv.writeBytes hwrite
    · exact hs.raise nofun
  | ldVMem =>
    simp only [exec, execLdVMem] at h
    split at h <;> cases h
    · exact hadv.loadRegs
    · exact hs.raise nofun

end Fetched

/-- Every Step keeps the invariant, in every mode (R92). -/
theorem of_step (hs : s.Inv) (h : step s = .next t) : t.Inv := by
  unfold step at h
  split at h
  next hrun =>
    split at h
    · cases h
      exact hs.raise nofun
    next hfetch =>
      split at h
      · exact hs.of_exec (by simpa [State.fetchOutOfRange] using hfetch) hrun h
      · cases h
        exact hs.raise nofun
  next hwait =>
    cases h
    exact hs.keyWaitPoll hwait
  · cases h
    exact hs

/-! ## Reset and Load -/

theorem resetFor (c : Config) : (State.resetFor c).Inv := by
  refine ⟨reset_mem_wf c, shaped_blank _ _, Nat.zero_le 16, ?_, fun k => ?_, ?_⟩
  · simp [State.resetFor]
  · simp [State.resetFor]
  · simp [State.resetFor, FaultRecord.clear]

/-- The Reset command differs from the state after reset in the inputs only (R190). -/
theorem resetAgain (s : State) : s.resetAgain.Inv := (resetFor s.config).free (resetFor s.config).pc_le

theorem load (hs : s.Inv) (bytes : List Byte) : (s.load bytes).Inv := by
  unfold State.load
  split
  · exact (hs.pokeBytes (by omega)).setPc (by decide)
  · obtain ⟨hmem, hfb, hsp, hpc, hstack, -⟩ := hs
    exact ⟨hmem, hfb, hsp, hpc, hstack, iff_of_true rfl nofun⟩

end State.Inv

/-! ## Every Step answers (R184) -/

/-- Where SP is at most 16, CALL and RET find the slot they need, and no other instruction can fail to answer. -/
theorem exec_answers (i : Instr) {s : State} (hsp : s.sp.toNat ≤ 16) : ∃ t, exec i s = .next t := by
  cases i with
  | call nnn =>
    by_cases hfull : s.sp = 16
    · exact ⟨_, if_pos hfull⟩
    · have hslot : s.advance.sp.toNat < 16 := by rw [advance_sp]; bv_omega
      have hpush := (push_eq_some _ _ s.advance.pc).2 ⟨hslot, rfl⟩
      simp only [exec, execCall, if_neg hfull, hpush]
      exact ⟨_, rfl⟩
  | ret =>
    by_cases hempty : s.sp = 0
    · exact ⟨_, if_pos hempty⟩
    · have hslot : (s.advance.sp - 1).toNat < 16 := by rw [advance_sp]; bv_omega
      have hpop := (pop_eq_some _ _).2 ⟨hslot, rfl⟩
      simp only [exec, execRet, if_neg hempty, hpop]
      exact ⟨_, rfl⟩
  | sys => simp only [exec, execSys]; split <;> exact ⟨_, rfl⟩
  | drw => simp only [exec, execDrw]; split <;> exact ⟨_, rfl⟩
  | skp | sknp => simp only [exec, execSkp, execSknp]; split <;> exact ⟨_, rfl⟩
  | ldB | ldMemV | ldVMem => simp only [exec, execLdB, execLdMemV, execLdVMem]; split <;> exact ⟨_, rfl⟩
  | _ => exact ⟨_, rfl⟩

theorem step_answers {s : State} (hsp : s.sp.toNat ≤ 16) : ∃ t, step s = .next t := by
  unfold step
  split
  · split
    · exact ⟨_, rfl⟩
    · split
      · exact exec_answers _ hsp
      · exact ⟨_, rfl⟩
  · exact ⟨_, rfl⟩
  · exact ⟨_, rfl⟩

/-- One command, from any state that meets the invariant, answers and keeps it. -/
theorem command_answers_inv (c : Command) {s : State} (hs : s.Inv) : ∃ t, s.command c = .next t ∧ t.Inv := by
  cases c with
  | reset => exact ⟨_, rfl, .resetAgain s⟩
  | load bytes => exact ⟨_, rfl, hs.load bytes⟩
  | step random =>
    have hsupplied : State.Inv { s with randomInput := [random] } := hs.free hs.pc_le
    obtain ⟨t, ht⟩ := step_answers hsupplied.sp_le
    exact ⟨t, ht, hsupplied.of_step ht⟩
  | tick => exact ⟨_, rfl, hs.free hs.pc_le⟩
  | setKey => exact ⟨_, rfl, hs.free hs.pc_le⟩

/-! ## The obligations -/

/-- Settles O14, by the mode of the Step and the instruction it executes. -/
theorem stepKeepsTheInvariant : Obligations.StepKeepsTheInvariant := fun _ _ hs h => hs.of_step h

/-- Settles O15: only CALL and RET can fail to answer, and they do not where SP is at most 16. -/
theorem stepAlwaysAnswers : Obligations.StepAlwaysAnswers := fun _ hsp => step_answers hsp

/-- Settles O16, by induction on the commands. -/
theorem everyCommandSequenceKeepsTheInvariant : Obligations.EveryCommandSequenceKeepsTheInvariant := by
  intro cs
  induction cs with
  | nil => exact fun s hs => ⟨s, rfl, hs⟩
  | cons c cs ih =>
    intro s hs
    obtain ⟨t, ht, hinv⟩ := command_answers_inv c hs
    simpa [State.commands, ht] using ih t hinv

/-- Settles O13: the defaults are one choice of the parameters. -/
theorem resetMeetsTheInvariant : Obligations.ResetMeetsTheInvariant := ⟨.resetFor _, .resetFor⟩

/-- Settles O19: memory and the display are read through their laws, every other place by the definition of the state. -/
theorem resetStateHoldsTheTable : Obligations.ResetStateHoldsTheTable := by
  intro c s
  refine ⟨fun r => by simp [s, State.resetFor, State.reg], rfl, rfl, rfl, fun k => by simp [s, State.resetFor], rfl, rfl,
    fun a ha => ?_, fun px py _ _ => get_blank _ _ px py, rfl, rfl, rfl⟩
  have hfont : 0x50 ≤ a ∧ a - 0x50 < 80 ↔ 0x50 ≤ a ∧ a ≤ 0x9F := by omega
  have hpeek : s.peek a = initialByte c a := rfl
  simp [State.memRead, ha, hpeek, initialByte, hfont]

end Sys2Proof.Machine
end

section
/-! The canonical forms of memory and of the display: what reads the same everywhere is the same data (R34, R38; log 8). -/

namespace Sys2Proof.Machine

/-! ## Memory -/

theorem Memory.wf_iff (c : Config) (m : List Host.Cell) :
    Memory.wf c m = true ↔
      Memory.rising m = true ∧ ∀ cell ∈ m, cell.1 < 0x1000 ∧ cell.2 ≠ initialByte c cell.1 := by
  simp [Memory.wf]

/-- Rising lists of cells are lists in the order of their addresses. -/
theorem Memory.rising_iff_pairwise (m : List Host.Cell) :
    Memory.rising m = true ↔ m.Pairwise (fun x y => x.1 < y.1) := by
  induction m with
  | nil => simp [Memory.rising]
  | cons cell m ih => simp [Memory.rising, ih]

/-- A rising list names one byte for an address, so looking the address up finds every cell. -/
theorem Memory.find?_eq_some_iff {m : List Host.Cell} (h : Memory.rising m = true) (a : Nat) (b : Byte) :
    Memory.find? m a = some b ↔ (a, b) ∈ m := by
  induction m with
  | nil => simp [Memory.find?]
  | cons cell m ih =>
    obtain ⟨k, v⟩ := cell
    simp only [Memory.rising, Bool.and_eq_true, List.all_eq_true, decide_eq_true_eq] at h
    obtain ⟨hlow, hm⟩ := h
    by_cases hk : k = a
    · subst hk
      have hother : (k, b) ∉ m := fun hmem => lt_irrefl k (hlow _ hmem)
      simp [Memory.find?, hother, eq_comm]
    · simp [Memory.find?, hk, ih hm, Ne.symm hk]

/-- In a canonical list a cell is an address that reads as another byte than an unlisted one does. -/
theorem Memory.mem_iff_read {c : Config} {m : List Host.Cell} (h : Memory.wf c m = true) (a : Nat) (b : Byte) :
    (a, b) ∈ m ↔ (Memory.find? m a).getD (initialByte c a) = b ∧ b ≠ initialByte c a := by
  obtain ⟨hrising, hcells⟩ := (Memory.wf_iff c m).1 h
  have hlisted := Memory.find?_eq_some_iff hrising a
  cases hfind : Memory.find? m a with
  | none =>
    have habsent : (a, b) ∉ m := fun hmem => by simp [(hlisted b).2 hmem] at hfind
    simp only [habsent, Option.getD_none, false_iff]
    rintro ⟨rfl, hne⟩
    exact hne rfl
  | some b' =>
    obtain ⟨-, hne⟩ := hcells _ ((hlisted b').1 hfind)
    rw [← hlisted b, hfind, Option.some_inj, Option.getD_some]
    exact ⟨by rintro rfl; exact ⟨rfl, hne⟩, And.left⟩

/-- Canonical memories that read the same everywhere are the same list. -/
theorem Memory.eq_of_read_eq {c : Config} {m m' : List Host.Cell} (h : Memory.wf c m = true)
    (h' : Memory.wf c m' = true)
    (hread : ∀ a, (Memory.find? m a).getD (initialByte c a) = (Memory.find? m' a).getD (initialByte c a)) : m = m' := by
  have horder := (Memory.rising_iff_pairwise m).1 ((Memory.wf_iff c m).1 h).1
  have horder' := (Memory.rising_iff_pairwise m').1 ((Memory.wf_iff c m').1 h').1
  have hcells : ∀ cell, cell ∈ m ↔ cell ∈ m' := fun (a, b) => by
    rw [Memory.mem_iff_read h, Memory.mem_iff_read h', hread a]
  have hnodup : ∀ {l : List Host.Cell}, l.Pairwise (fun x y => x.1 < y.1) → l.Nodup :=
    fun hl => hl.imp (fun hlt heq => hlt.ne (congrArg Prod.fst heq))
  exact ((List.perm_ext_iff_of_nodup (hnodup horder) (hnodup horder')).2 hcells).eq_of_pairwise
    (fun _ _ _ _ hlt hgt => absurd hlt hgt.asymm) horder horder'

/-! ## The display -/

theorem get_eq_getElem {fb : List (List Bool)} {px py : Nat} (hy : py < fb.length) (hx : px < fb[py].length) :
    Display.get fb px py = fb[py][px] := by
  simp [Display.get, hy, hx]

/-- Displays of one size that show the same pixels are the same grid. -/
theorem eq_of_get_eq {w h : Nat} {fb fb' : List (List Bool)} (hs : Display.shaped w h fb = true)
    (hs' : Display.shaped w h fb' = true) (hget : ∀ px py, Display.get fb px py = Display.get fb' px py) : fb = fb' := by
  obtain ⟨hlen, hrows⟩ := (shaped_iff w h fb).1 hs
  obtain ⟨hlen', hrows'⟩ := (shaped_iff w h fb').1 hs'
  refine List.ext_getElem (hlen.trans hlen'.symm) fun py hy hy' => ?_
  have hrow := hrows _ (List.getElem_mem hy)
  have hrow' := hrows' _ (List.getElem_mem hy')
  refine List.ext_getElem (hrow.trans hrow'.symm) fun px hx hx' => ?_
  rw [← get_eq_getElem hy hx, ← get_eq_getElem hy' hx', hget]

/-! ## The state -/

/-- Settles O17: memory and the display are equal by their canonical forms, the register file, the stack and the keys
element by element, and every other field is one place. -/
theorem indistinguishableStatesAreEqual : Obligations.IndistinguishableStatesAreEqual := by
  intro s t hsmem htmem hsfb htfb hsame
  have hconfig : t.config = s.config := hsame .config
  have hv : t.v = s.v := Vector.ext fun k hk => hsame (.v ⟨k, hk⟩)
  have hstack : t.stack = s.stack := Vector.ext fun k hk => hsame (.slot ⟨k, hk⟩)
  have hkeys : t.keys = s.keys := Vector.ext fun k hk => hsame (.key ⟨k, hk⟩)
  have hmem : t.mem = s.mem := by
    rw [hconfig] at htmem
    refine Memory.eq_of_read_eq htmem hsmem fun a => ?_
    have hpeek : t.peek a = s.peek a := hsame (.mem a)
    rwa [State.peek, State.peek, hconfig] at hpeek
  have hfb : t.fb = s.fb := by
    rw [hconfig] at htfb
    exact eq_of_get_eq htfb hsfb fun px py => hsame (.pixel px py)
  cases s
  cases t
  simp only [State.mk.injEq]
  exact ⟨hv, hsame .i, hsame .pc, hsame .sp, hstack, hsame .dt, hsame .st, hmem, hfb, hsame .mode, hsame .waitReg,
    hsame .fault, hkeys, hsame .randomInput, hsame .randomTaken, hconfig⟩

end Sys2Proof.Machine
end

section
/-! Who writes a V register, and who writes the display (R22, R31, R38). -/

namespace Sys2Proof.Machine

/-! ## Operations that leave V alone -/

@[simp] theorem reg_skipIf (s : State) (c : Bool) (r : Reg) : (s.skipIf c).reg r = s.reg r := by
  rw [skipIf_eq]
  rfl

@[simp] theorem reg_pokeBytes (s : State) (base : Nat) (bs : List Byte) (r : Reg) :
    (s.pokeBytes base bs).reg r = s.reg r := by
  rw [pokeBytes_frame]
  rfl

@[simp] theorem reg_takeRandom (s : State) (r : Reg) : s.takeRandom.2.reg r = s.reg r := by
  obtain ⟨b, rest, -, htake⟩ | ⟨-, htake⟩ := takeRandom_cases s <;> rw [htake] <;> rfl

theorem reg_of_writeBytes {s t : State} {base : Nat} {bs : List Byte} (h : s.writeBytes base bs = some t) (r : Reg) :
    t.reg r = s.reg r := by
  obtain ⟨-, rfl⟩ := (writeBytes_eq_some _ _ _ _).1 h
  exact reg_pokeBytes s base bs r

theorem reg_of_push {s t : State} {w : Word} (h : s.push w = some t) (r : Reg) : t.reg r = s.reg r := by
  obtain ⟨-, rfl⟩ := (push_eq_some _ _ _).1 h
  rfl

theorem reg_of_pop {s t : State} (h : s.pop = some t) (r : Reg) : t.reg r = s.reg r := by
  obtain ⟨-, rfl⟩ := (pop_eq_some _ _).1 h
  rfl

/-! ## Writers of V -/

/-- LD Vx,[I] loads V[0]..V[x] and no register above (R135). -/
theorem reg_execLdVMem {x r : Reg} {s t : State} (h : execLdVMem x s = .next t) (hr : ¬ r ≤ x) : t.reg r = s.reg r := by
  unfold execLdVMem at h
  split at h <;> cases h
  next hread =>
    obtain ⟨-, rfl⟩ := (readBytes_eq_some _ _ _ _).1 hread
    have hout : ¬(0 ≤ r.val ∧ r.val - 0 < (s.peekBytes s.i.toNat (x.val + 1)).length) := by
      rw [length_peekBytes]
      have := Fin.le_def.not.1 hr
      omega
    rw [reg_loadRegs, dif_neg hout, reg_advance]
  · exact reg_raise _ _ _ _ _

/-- DRW resets VF and then writes the collision to it (R151, R154). -/
theorem reg_execDrw {x y r : Reg} {n : Nibble} {s t : State} (h : execDrw x y n s = .next t) (hr : r ≠ 15) :
    t.reg r = s.reg r := by
  unfold execDrw at h
  split at h <;> cases h
  · rw [reg_setFlag, if_neg hr]
    exact (reg_setFlag _ _ _).trans (if_neg hr)
  · exact reg_raise _ _ _ _ _

/-- A register that the instruction is not listed as writing keeps its byte (R22). -/
theorem reg_of_exec {i : Instr} {s t : State} {r : Reg} (h : exec i s = .next t) (hr : ¬ writesReg r i) :
    t.reg r = s.reg r := by
  cases i with
  | ldImm | addImm | ldReg | orReg | andReg | xorReg | rnd | ldVDt =>
    cases h
    simp [show r ≠ _ from hr]
  | addReg | sub | shr | subn | shl =>
    cases h
    obtain ⟨hx, hf⟩ := not_or.1 hr
    simp [hx, hf]
  | ldVMem => exact reg_execLdVMem h hr
  | drw => exact reg_execDrw h hr
  | sys =>
    simp only [exec, execSys] at h
    split at h <;> cases h <;> rfl
  | call =>
    simp only [exec, execCall] at h
    split at h
    · cases h
      rfl
    · split at h <;> cases h
      next hpush => exact reg_of_push hpush r
  | ret =>
    simp only [exec, execRet] at h
    split at h
    · cases h
      rfl
    · split at h <;> cases h
      next hpop => exact reg_of_pop hpop r
  | seImm | sneImm | seReg | sneReg =>
    cases h
    exact reg_skipIf _ _ r
  | skp | sknp =>
    simp only [exec, execSkp, execSknp] at h
    split at h <;> cases h
    · exact reg_skipIf _ _ r
    · rfl
  | ldB | ldMemV =>
    simp only [exec, execLdB, execLdMemV] at h
    split at h <;> cases h
    next hwrite => exact reg_of_writeBytes hwrite r
    · rfl
  | cls | jp | jpV0 | ldI | addI | ldF | ldVK | ldDtV | ldStV =>
    cases h
    rfl

/-- The key-wait poll writes the awaited register and no other (R143). -/
theorem reg_keyWaitPoll {s : State} {r : Reg} (hr : r ≠ s.waitReg) : s.keyWaitPoll.reg r = s.reg r := by
  unfold State.keyWaitPoll
  split
  · exact (reg_setReg _ _ _ _).trans (if_neg hr)
  · rfl

/-! ## The obligations -/

/-- Settles O54: a register outside the list is kept by every instruction, and by the poll unless it is the awaited one. -/
theorem onlyListedInstructionsWriteV : Obligations.OnlyListedInstructionsWriteV := by
  refine ⟨fun i s t r h hne => not_not.1 fun hr => hne (reg_of_exec h hr), fun s t r hmode h hne => ?_⟩
  simp only [step, hmode] at h
  cases h
  exact not_not.1 fun hr => hne (reg_keyWaitPoll hr)

/-- Settles O56: of the cases of `ExecWrites` only the one of CLS and DRW has another display. -/
theorem displayWrittenOnlyByClsAndDrw : Obligations.DisplayWrittenOnlyByClsAndDrw := by
  intro i s t h hne
  cases execWrites_of_exec h with
  | display _ _ _ _ hi => exact hi
  | _ => exact absurd rfl hne

end Sys2Proof.Machine
end

section
/-! The two timers are read and written by the instructions that name them and by Tick: every other instruction does the
same whatever they hold (R32, R33, R174). -/

namespace Sys2Proof.Machine

/-- The state with other values in DT and ST. -/
def State.withTimers (s : State) (dt st : Byte) : State := { s with dt := dt, st := st }

theorem tick_eq_withTimers (s : State) : s.tick = s.withTimers (countDown s.dt) (countDown s.st) := rfl

/-- The outcome of an instruction does not depend on the timers, and leaves what they hold. -/
def IgnoresTimers (f : State → Host.Outcome State Fault Refusal) : Prop :=
  ∀ s dt st, f (s.withTimers dt st) = mapNext (State.withTimers · dt st) (f s)

section SharedOperations

variable (s : State) (dt st : Byte)

@[simp] theorem withTimers_i : (s.withTimers dt st).i = s.i := rfl
@[simp] theorem withTimers_pc : (s.withTimers dt st).pc = s.pc := rfl
@[simp] theorem withTimers_sp : (s.withTimers dt st).sp = s.sp := rfl
@[simp] theorem reg_withTimers (r : Reg) : (s.withTimers dt st).reg r = s.reg r := rfl
@[simp] theorem firstRegs_withTimers (x : Reg) : (s.withTimers dt st).firstRegs x = s.firstRegs x := rfl
@[simp] theorem advance_withTimers : (s.withTimers dt st).advance = s.advance.withTimers dt st := rfl

@[simp] theorem skipIf_withTimers (c : Bool) : (s.withTimers dt st).skipIf c = (s.skipIf c).withTimers dt st := by
  cases c <;> rfl

@[simp] theorem push_withTimers (w : Word) :
    (s.withTimers dt st).push w = (s.push w).map (State.withTimers · dt st) := by
  unfold State.push State.withTimers
  split <;> rfl

@[simp] theorem pop_withTimers : (s.withTimers dt st).pop = s.pop.map (State.withTimers · dt st) := by
  unfold State.pop State.withTimers
  split <;> rfl

theorem peekBytes_withTimers (base n : Nat) : (s.withTimers dt st).peekBytes base n = s.peekBytes base n := by
  induction n generalizing base with
  | zero => rfl
  | succ n ih => exact congrArg (s.peek base :: ·) (ih (base + 1))

theorem pokeBytes_withTimers (base : Nat) (bs : List Byte) :
    (s.withTimers dt st).pokeBytes base bs = (s.pokeBytes base bs).withTimers dt st := by
  induction bs generalizing s base with
  | nil => rfl
  | cons b bs ih => exact ih (s.poke base b) (base + 1)

@[simp] theorem loadRegs_withTimers (k : Nat) (bs : List Byte) :
    (s.withTimers dt st).loadRegs k bs = (s.loadRegs k bs).withTimers dt st := by
  induction bs generalizing s k with
  | nil => rfl
  | cons b bs ih =>
    rw [State.loadRegs, State.loadRegs]
    split
    next hk => exact ih (s.setReg ⟨k, hk⟩ b) (k + 1)
    · rfl

@[simp] theorem takeRandom_withTimers :
    (s.withTimers dt st).takeRandom = (s.takeRandom.1, s.takeRandom.2.withTimers dt st) := by
  cases h : s.randomInput <;> simp [State.takeRandom, State.withTimers, h]

@[simp] theorem readBytes_withTimers (base n : Nat) : (s.withTimers dt st).readBytes base n = s.readBytes base n := by
  rw [State.readBytes, State.readBytes, peekBytes_withTimers]

@[simp] theorem writeBytes_withTimers (base : Nat) (bs : List Byte) :
    (s.withTimers dt st).writeBytes base bs = (s.writeBytes base bs).map (State.withTimers · dt st) := by
  rw [State.writeBytes, State.writeBytes, pokeBytes_withTimers]
  split <;> rfl

end SharedOperations

/-! ## The instructions -/

/-- LD Vx,DT, LD DT,Vx and LD ST,Vx are the only instructions that name a timer (R32, R33). -/
theorem exec_ignoresTimers {i : Instr} (hget : ∀ x, i ≠ .ldVDt x) (hdt : ∀ x, i ≠ .ldDtV x)
    (hst : ∀ x, i ≠ .ldStV x) : IgnoresTimers (exec i) := by
  intro s dt st
  cases i with
  | ldVDt x => exact absurd rfl (hget x)
  | ldDtV x => exact absurd rfl (hdt x)
  | ldStV x => exact absurd rfl (hst x)
  | sys =>
    simp only [exec]
    unfold execSys State.withTimers
    split <;> rfl
  | call =>
    simp only [exec, execCall, withTimers_sp, withTimers_pc, advance_withTimers, push_withTimers]
    split
    · rfl
    · cases s.advance.push s.advance.pc <;> rfl
  | ret =>
    simp only [exec, execRet, withTimers_sp, advance_withTimers, pop_withTimers]
    split
    · rfl
    · cases s.advance.pop <;> rfl
  | seImm | sneImm | seReg | sneReg => exact congrArg Host.Outcome.next (skipIf_withTimers s.advance dt st _)
  | skp x | sknp x =>
    simp only [exec, execSkp, execSknp, reg_withTimers, advance_withTimers, skipIf_withTimers]
    cases keyCode (s.reg x) <;> rfl
  | rnd =>
    simp only [exec, execRnd, advance_withTimers, takeRandom_withTimers]
    rfl
  | drw x y n =>
    simp only [exec, execDrw, withTimers_i, readBytes_withTimers]
    cases s.readBytes s.i.toNat n.toNat <;> rfl
  | ldB x =>
    simp only [exec, execLdB, withTimers_i, reg_withTimers, advance_withTimers, writeBytes_withTimers]
    cases s.advance.writeBytes s.i.toNat (decimalDigits (s.reg x)) <;> rfl
  | ldMemV x =>
    simp only [exec, execLdMemV, withTimers_i, firstRegs_withTimers, advance_withTimers, writeBytes_withTimers]
    cases s.advance.writeBytes s.i.toNat (s.firstRegs x) <;> rfl
  | ldVMem x =>
    simp only [exec, execLdVMem, withTimers_i, advance_withTimers, readBytes_withTimers, loadRegs_withTimers]
    cases s.readBytes s.i.toNat (x.val + 1) <;> rfl
  | _ => rfl

theorem mapNext_congr {f g : State → State} {o : Host.Outcome State Fault Refusal} (h : ∀ t, o = .next t → f t = g t) :
    mapNext f o = mapNext g o := by
  cases o with
  | next t => exact congrArg Host.Outcome.next (h t rfl)
  | fault | refused => rfl

theorem dt_of_exec {i : Instr} {s t : State} (h : exec i s = .next t) (hi : ∀ x, i ≠ .ldDtV x) : t.dt = s.dt := by
  obtain ⟨-, -, -, hdt, -⟩ := otherStateHasItsOwnWriters i s t h
  by_contra hne
  obtain ⟨x, hx⟩ := hdt hne
  exact hi x hx

theorem st_of_exec {i : Instr} {s t : State} (h : exec i s = .next t) (hi : ∀ x, i ≠ .ldStV x) : t.st = s.st := by
  obtain ⟨-, -, -, -, hst, -⟩ := otherStateHasItsOwnWriters i s t h
  by_contra hne
  obtain ⟨x, hx⟩ := hst hne
  exact hi x hx

/-! ## The obligations -/

/-- Settles O59: the two instructions that name DT only are read off, and every other one ignores the timers. -/
theorem noInstructionReadsSt : Obligations.NoInstructionReadsSt := by
  refine fun i s b => ⟨fun hst => ?_, by rintro ⟨x, rfl⟩; rfl⟩
  by_cases hget : ∃ x, i = .ldVDt x
  · obtain ⟨x, rfl⟩ := hget
    rfl
  by_cases hdt : ∃ x, i = .ldDtV x
  · obtain ⟨x, rfl⟩ := hdt
    rfl
  have hdt' := not_exists.1 hdt
  refine (exec_ignoresTimers (not_exists.1 hget) hdt' hst s s.dt b).trans (mapNext_congr fun t ht => ?_)
  rw [State.withTimers, dt_of_exec ht hdt']

/-- Settles O60: Tick is other values in the two timers, and what the instruction leaves of them is what they were. -/
theorem tickCommutesWithInstructions : Obligations.TickCommutesWithInstructions := by
  intro i s hget hdt hst
  rw [tick_eq_withTimers, exec_ignoresTimers hget hdt hst]
  refine mapNext_congr fun t ht => ?_
  rw [tick_eq_withTimers, dt_of_exec ht hdt, st_of_exec ht hst]

end Sys2Proof.Machine
end

section
/-! The opcode rows read a word exactly: what a row builds from a word that its pattern accepts has that word (R72, R76). -/

namespace Sys2Proof

/-! ## A word put together again from its fields (R12) -/

theorem encodeNNN_fields (w : Word) : encodeNNN (nibble w 3) (fieldNNN w) = w := by
  have hjoin := BitVec.extractLsb'_append_extractLsb'_eq_extractLsb' (x := w) (start₂ := 12) (start₁ := 0) (len₁ := 12)
    (len₂ := 4) rfl
  exact hjoin.trans BitVec.extractLsb'_eq_self

theorem encodeXYN_fields (w : Word) : encodeXYN (nibble w 3) (fieldX w) (fieldY w) (fieldN w) = w :=
  (word_eq_nibbles w).symm

theorem encodeXKK_append_nibbles (a c d : Nibble) (x : Reg) :
    encodeXKK a x (c ++ d) = a ++ regField x ++ c ++ d := by
  rw [BitVec.append_assoc (x₁ := a ++ regField x)]
  rfl

theorem encodeXKK_nibbles (w : Word) : encodeXKK (nibble w 3) (fieldX w) (nibble w 1 ++ nibble w 0) = w :=
  (encodeXKK_append_nibbles _ _ _ _).trans (word_eq_nibbles w).symm

theorem encodeXKK_fields (w : Word) : encodeXKK (nibble w 3) (fieldX w) (fieldKK w) = w := by
  have hjoin : nibble w 1 ++ nibble w 0 = fieldKK w := BitVec.extractLsb'_append_extractLsb'_eq_extractLsb' rfl
  rw [← hjoin, encodeXKK_nibbles]

/-! ## The rows of the opcode map (R75) -/

/-- The instruction that the row reads from a word it accepts is the one the word stands for. -/
def OpcodeRow.ReadsExactly (r : OpcodeRow) : Prop := ∀ w, r.pattern.accepts w = true → encode (r.build w) = w

theorem nibbleAgrees_iff (o : Option Nibble) (d : Nibble) : nibbleAgrees o d = true ↔ ∀ lit ∈ o, lit = d := by
  cases o <;> simp [nibbleAgrees]

/-- A pattern accepts a word where every literal nibble is the word's own (R75). -/
theorem Pattern.accepts_iff (p : Pattern) (w : Word) :
    p.accepts w = true ↔ (∀ lit ∈ p.n3, lit = nibble w 3) ∧ (∀ lit ∈ p.n2, lit = nibble w 2) ∧
      (∀ lit ∈ p.n1, lit = nibble w 1) ∧ ∀ lit ∈ p.n0, lit = nibble w 0 := by
  simp [Pattern.accepts, nibbleAgrees_iff, and_assoc]

namespace OpcodeRow.ReadsExactly

variable {a b c d : Nibble}

theorem rowNone {i : Instr} (hi : encode i = a ++ b ++ c ++ d) : (rowNone a b c d i).ReadsExactly := by
  intro w hw
  obtain ⟨h3, h2, h1, h0⟩ := (Pattern.accepts_iff _ _).1 hw
  cases h3 a rfl
  cases h2 b rfl
  cases h1 c rfl
  cases h0 d rfl
  exact hi.trans (word_eq_nibbles w).symm

theorem rowX {f : Reg → Instr} (hf : ∀ x, encode (f x) = encodeXKK a x (c ++ d)) : (rowX a c d f).ReadsExactly := by
  intro w hw
  obtain ⟨h3, -, h1, h0⟩ := (Pattern.accepts_iff _ _).1 hw
  cases h3 a rfl
  cases h1 c rfl
  cases h0 d rfl
  exact (hf _).trans (encodeXKK_nibbles w)

theorem rowXY {f : Reg → Reg → Instr} (hf : ∀ x y, encode (f x y) = encodeXYN a x y d) :
    (rowXY a d f).ReadsExactly := by
  intro w hw
  obtain ⟨h3, -, -, h0⟩ := (Pattern.accepts_iff _ _).1 hw
  cases h3 a rfl
  cases h0 d rfl
  exact (hf _ _).trans (encodeXYN_fields w)

theorem rowXKK {f : Reg → Byte → Instr} (hf : ∀ x kk, encode (f x kk) = encodeXKK a x kk) :
    (rowXKK a f).ReadsExactly := by
  intro w hw
  obtain ⟨h3, -⟩ := (Pattern.accepts_iff _ _).1 hw
  cases h3 a rfl
  exact (hf _ _).trans (encodeXKK_fields w)

theorem rowXYN {f : Reg → Reg → Nibble → Instr} (hf : ∀ x y n, encode (f x y n) = encodeXYN a x y n) :
    (rowXYN a f).ReadsExactly := by
  intro w hw
  obtain ⟨h3, -⟩ := (Pattern.accepts_iff _ _).1 hw
  cases h3 a rfl
  exact (hf _ _ _).trans (encodeXYN_fields w)

theorem rowNNN {f : Addr → Instr} (hf : ∀ nnn, encode (f nnn) = encodeNNN a nnn) : (rowNNN a f).ReadsExactly := by
  intro w hw
  obtain ⟨h3, -⟩ := (Pattern.accepts_iff _ _).1 hw
  cases h3 a rfl
  exact (hf _).trans (encodeNNN_fields w)

/-- Every row of the map, in the map's order: the encoder has the row's instruction in the row's own format. -/
theorem of_mem : ∀ r ∈ opcodeRows, r.ReadsExactly := by
  simp only [opcodeRows, List.forall_mem_append, List.forall_mem_cons, List.not_mem_nil,
    IsEmpty.forall_iff, implies_true, and_true]
  exact ⟨⟨⟨⟨rowNone rfl, rowNone rfl⟩,
    rowX fun _ => rfl, rowX fun _ => rfl, rowX fun _ => rfl, rowX fun _ => rfl, rowX fun _ => rfl, rowX fun _ => rfl,
    rowX fun _ => rfl, rowX fun _ => rfl, rowX fun _ => rfl, rowX fun _ => rfl, rowX fun _ => rfl⟩,
    rowXY fun _ _ => rfl, rowXY fun _ _ => rfl, rowXY fun _ _ => rfl, rowXY fun _ _ => rfl, rowXY fun _ _ => rfl,
    rowXY fun _ _ => rfl, rowXY fun _ _ => rfl, rowXY fun _ _ => rfl, rowXY fun _ _ => rfl, rowXY fun _ _ => rfl,
    rowXY fun _ _ => rfl⟩,
    rowNNN fun _ => rfl, rowNNN fun _ => rfl, rowNNN fun _ => rfl, rowXKK fun _ _ => rfl, rowXKK fun _ _ => rfl,
    rowXKK fun _ _ => rfl, rowXKK fun _ _ => rfl, rowNNN fun _ => rfl, rowNNN fun _ => rfl, rowXKK fun _ _ => rfl,
    rowXYN fun _ _ _ => rfl⟩

end OpcodeRow.ReadsExactly

/-- A word that decodes is the word of its instruction (R72, R76). -/
theorem encode_of_decode {w : Word} {i : Instr} (h : decode w = .ok i) : encode i = w := by
  unfold decode at h
  split at h <;> cases h
  next r hfind =>
    have haccepts := List.find?_some hfind
    exact OpcodeRow.ReadsExactly.of_mem r (List.mem_of_find?_eq_some hfind) w haccepts

end Sys2Proof
end

section
/-! The fetch of a Step, what a store leaves in memory, and who writes memory (R53, R55, R58, R59, R65). -/

namespace Sys2Proof.Machine

/-! ## The fetch (R90) -/

theorem fetchOutOfRange_iff (s : State) : s.fetchOutOfRange = true ↔ s.pc.toNat > 0xFFE := decide_eq_true_iff

/-- A Step in Running whose word can be fetched and decodes is the instruction's own meaning (R90). -/
theorem step_eq_exec {s : State} {i : Instr} (hrun : s.mode = .running) (hfetch : s.pc.toNat ≤ 0xFFE)
    (hdecode : decode s.fetchWord = .ok i) : step s = exec i s := by
  have hin : ¬ s.fetchOutOfRange = true := by
    rw [fetchOutOfRange_iff]
    omega
  simp only [step, hrun, if_neg hin, hdecode]

theorem step_eq_raiseFetch {s : State} (hrun : s.mode = .running) (hfetch : s.pc.toNat > 0xFFE) :
    step s = .next s.raiseFetch := by
  simp only [step, hrun, if_pos ((fetchOutOfRange_iff s).2 hfetch)]

/-- Two bytes and nothing after them decode to an instruction exactly if their word does. -/
theorem decodeBytes_pair_eq_ok {hi lo : Byte} {i : Instr} :
    decodeBytes [hi, lo] = .ok (i, []) ↔ decode (wordOfBytes hi lo) = .ok i := by
  rw [decodeBytes]
  cases decode (wordOfBytes hi lo) <;> simp [Except.map]

/-- Fault entry leaves every place but MODE and FAULT (R164). -/
theorem unchanged_raise (s : State) (cause : Cause) (word info : Word) :
    Unchanged s (s.raise cause word info) {.mode, .fault} := by
  intro f hf
  cases f with
  | mode | fault => simp at hf
  | _ => rfl

/-! ## What the bulk store leaves in memory (R134) -/

theorem execLdMemV_eq_next {x : Reg} {s : State} (h : s.i.toNat + x.val ≤ 0xFFF) :
    execLdMemV x s = .next (s.advance.pokeBytes s.i.toNat (s.firstRegs x)) := by
  have hwrite := (writeBytes_eq_some s.advance _ s.i.toNat (s.firstRegs x)).2
    ⟨.inr (by rw [length_firstRegs]; omega), rfl⟩
  simp only [execLdMemV, hwrite]

/-- The register V[r] of those stored lies r bytes above the first. -/
theorem peek_pokeBytes_firstRegs (s t : State) (base : Nat) {x r : Reg} (h : r ≤ x) :
    (t.pokeBytes base (s.firstRegs x)).peek (base + r.val) = s.reg r := by
  have hin : r.val < (s.firstRegs x).length := by
    rw [length_firstRegs]
    exact Nat.lt_succ_of_le h
  rw [peek_pokeBytes, dif_pos ⟨by omega, by omega⟩]
  simp only [Nat.add_sub_cancel_left]
  exact getElem_firstRegs s x r hin

/-! ## Who writes memory (R59) -/

theorem peek_keyWaitPoll (s : State) (a : Nat) : s.keyWaitPoll.peek a = s.peek a := by
  unfold State.keyWaitPoll
  split <;> rfl

/-- A Step outside Running executes nothing, and so writes no memory (R142, R168). -/
theorem peek_of_step {s t : State} (hrun : s.mode ≠ .running) (h : step s = .next t) (a : Nat) :
    t.peek a = s.peek a := by
  unfold step at h
  split at h
  next hmode => exact absurd hmode hrun
  · cases h
    exact peek_keyWaitPoll s a
  · cases h
    rfl

/-! ## The obligations -/

/-- Settles O47: the bytes at the two addresses are the registers stored there, so the word fetched is theirs. -/
theorem storedCodeIsFetched : Obligations.StoredCodeIsFetched := by
  intro x k k' s t hrange hexec hk hx hrun i hdecode at'
  cases (execLdMemV_eq_next hrange).symm.trans hexec
  have hx' : k'.val ≤ x.val := hx
  have hpc : at'.pc.toNat = s.i.toNat + k.val := Nat.mod_eq_of_lt (by omega)
  have hhigh : at'.peek at'.pc.toNat = s.reg k := by
    rw [hpc]
    exact peek_pokeBytes_firstRegs s s.advance _ (Fin.le_def.2 (by omega))
  have hlow : at'.peek (at'.pc.toNat + 1) = s.reg k' := by
    rw [hpc, Nat.add_assoc, ← hk]
    exact peek_pokeBytes_firstRegs s s.advance _ hx
  refine step_eq_exec hrun (by omega) ?_
  rw [State.fetchWord, hhigh, hlow]
  exact hdecode

/-- Settles O55: of the cases of `ExecWrites` only the one of the two stores has another memory, and of the commands Tick
and SetKey never touch it, a Step only in Running. -/
theorem memoryWrittenOnlyByStoresAndLoad : Obligations.MemoryWrittenOnlyByStoresAndLoad := by
  refine ⟨fun i s t a h hne => ?_, fun c s t a h hne => ?_⟩
  · cases execWrites_of_exec h with
    | store _ _ _ hi => exact hi
    | _ => exact absurd rfl hne
  · cases c with
    | reset => exact .inl rfl
    | load bytes => exact .inr (.inl ⟨bytes, rfl⟩)
    | step random =>
      have hkept (hrun : s.mode ≠ .running) : t.peek a = s.peek a :=
        peek_of_step (s := { s with randomInput := [random] }) hrun h a
      exact .inr (.inr ⟨random, rfl, not_not.1 fun hrun => hne (hkept hrun)⟩)
    | tick | setKey =>
      cases h
      exact absurd rfl hne

/-- Settles O6: the two bytes' word decodes to the instruction, and the instruction's word is that word. -/
theorem stepRunsTheDecodedInstruction : Obligations.StepRunsTheDecodedInstruction := by
  intro s i hrun hfetch hbytes
  have hdecode : decode s.fetchWord = .ok i := decodeBytes_pair_eq_ok.1 hbytes
  refine ⟨step_eq_exec hrun hfetch hdecode, ?_⟩
  rw [encode_of_decode hdecode]
  exact toNat_wordOfBytes _ _

/-- Settles O7: the fetch takes its fault before anything is decoded. -/
theorem fetchAboveMemoryFaults : Obligations.FetchAboveMemoryFaults := fun s hrun hfetch =>
  ⟨_, step_eq_raiseFetch hrun hfetch, rfl, rfl, unchanged_raise s _ _ _⟩

/-- Settles O18, by the law of a store and the canonical form that it keeps. -/
theorem storedByteReadsBack : Obligations.StoredByteReadsBack := by
  intro s a b ha
  refine ⟨s.poke a b, if_pos ha, ?_, fun a' hne => ?_, Memory.wf_put _ _ _ _ ha⟩
  · rw [State.memRead, if_pos ha, peek_poke, if_pos rfl]
  · rw [State.memRead, State.memRead, peek_poke, if_neg hne]

end Sys2Proof.Machine
end

section
/-! The keys are read by SKP, SKNP and the key-wait poll: every other instruction does the same whatever they are (R50). -/

namespace Sys2Proof.Machine

/-! ## Operations on many bytes, and what commutes with them -/

theorem peekBytes_congr {s t : State} (h : ∀ a, t.peek a = s.peek a) (base n : Nat) :
    t.peekBytes base n = s.peekBytes base n := by
  induction n generalizing base with
  | zero => rfl
  | succ n ih => rw [State.peekBytes, State.peekBytes, h, ih]

/-- What commutes with every store of one byte commutes with a store of many. -/
theorem pokeBytes_comm {f : State → State} (h : ∀ s a b, (f s).poke a b = f (s.poke a b)) (s : State) (base : Nat)
    (bs : List Byte) : (f s).pokeBytes base bs = f (s.pokeBytes base bs) := by
  induction bs generalizing s base with
  | nil => rfl
  | cons b bs ih => rw [State.pokeBytes, State.pokeBytes, h, ih]

/-- What commutes with every write of one register commutes with a load of many. -/
theorem loadRegs_comm {f : State → State} (h : ∀ s r b, (f s).setReg r b = f (s.setReg r b)) (s : State) (k : Nat)
    (bs : List Byte) : (f s).loadRegs k bs = f (s.loadRegs k bs) := by
  induction bs generalizing s k with
  | nil => rfl
  | cons b bs ih =>
    rw [State.loadRegs, State.loadRegs]
    split
    · rw [h, ih]
    · rfl

/-! ## Other keys -/

/-- The state with other keys. -/
def State.withKeys (keys : Vector Bool 16) (s : State) : State := { s with keys := keys }

section SharedOperations

variable (s : State) (keys : Vector Bool 16)

@[simp] theorem withKeys_i : (s.withKeys keys).i = s.i := rfl
@[simp] theorem withKeys_pc : (s.withKeys keys).pc = s.pc := rfl
@[simp] theorem withKeys_sp : (s.withKeys keys).sp = s.sp := rfl
@[simp] theorem reg_withKeys (r : Reg) : (s.withKeys keys).reg r = s.reg r := rfl
@[simp] theorem firstRegs_withKeys (x : Reg) : (s.withKeys keys).firstRegs x = s.firstRegs x := rfl
@[simp] theorem advance_withKeys : (s.withKeys keys).advance = s.advance.withKeys keys := rfl

@[simp] theorem skipIf_withKeys (c : Bool) : (s.withKeys keys).skipIf c = (s.skipIf c).withKeys keys := by
  rw [skipIf_eq, skipIf_eq]
  rfl

@[simp] theorem push_withKeys (w : Word) : (s.withKeys keys).push w = (s.push w).map (State.withKeys keys) := by
  unfold State.push State.withKeys
  split <;> rfl

@[simp] theorem pop_withKeys : (s.withKeys keys).pop = s.pop.map (State.withKeys keys) := by
  unfold State.pop State.withKeys
  split <;> rfl

@[simp] theorem loadRegs_withKeys (k : Nat) (bs : List Byte) :
    (s.withKeys keys).loadRegs k bs = (s.loadRegs k bs).withKeys keys := loadRegs_comm (fun _ _ _ => rfl) s k bs

@[simp] theorem takeRandom_withKeys :
    (s.withKeys keys).takeRandom = (s.takeRandom.1, s.takeRandom.2.withKeys keys) := by
  cases h : s.randomInput <;> simp [State.takeRandom, State.withKeys, h]

@[simp] theorem readBytes_withKeys (base n : Nat) : (s.withKeys keys).readBytes base n = s.readBytes base n := by
  rw [State.readBytes, State.readBytes, peekBytes_congr (s := s) (t := s.withKeys keys) fun _ => rfl]

@[simp] theorem writeBytes_withKeys (base : Nat) (bs : List Byte) :
    (s.withKeys keys).writeBytes base bs = (s.writeBytes base bs).map (State.withKeys keys) := by
  rw [State.writeBytes, State.writeBytes, pokeBytes_comm fun _ _ _ => rfl]
  split <;> rfl

end SharedOperations

/-! ## The instructions -/

/-- SKP and SKNP are the only instructions that read the keys, and none writes them (R8, R50). -/
theorem exec_withKeys {i : Instr} (hskp : ∀ x, i ≠ .skp x) (hsknp : ∀ x, i ≠ .sknp x) (s : State)
    (keys : Vector Bool 16) : exec i (s.withKeys keys) = mapNext (State.withKeys keys) (exec i s) := by
  cases i with
  | skp x => exact absurd rfl (hskp x)
  | sknp x => exact absurd rfl (hsknp x)
  | sys =>
    simp only [exec]
    unfold execSys State.withKeys
    split <;> rfl
  | call =>
    simp only [exec, execCall, withKeys_sp, withKeys_pc, advance_withKeys, push_withKeys]
    split
    · rfl
    · cases s.advance.push s.advance.pc <;> rfl
  | ret =>
    simp only [exec, execRet, withKeys_sp, advance_withKeys, pop_withKeys]
    split
    · rfl
    · cases s.advance.pop <;> rfl
  | seImm | sneImm | seReg | sneReg => exact congrArg Host.Outcome.next (skipIf_withKeys s.advance keys _)
  | rnd =>
    simp only [exec, execRnd, advance_withKeys, takeRandom_withKeys]
    rfl
  | drw x y n =>
    simp only [exec, execDrw, withKeys_i, readBytes_withKeys]
    cases s.readBytes s.i.toNat n.toNat <;> rfl
  | ldB x =>
    simp only [exec, execLdB, withKeys_i, reg_withKeys, advance_withKeys, writeBytes_withKeys]
    cases s.advance.writeBytes s.i.toNat (decimalDigits (s.reg x)) <;> rfl
  | ldMemV x =>
    simp only [exec, execLdMemV, withKeys_i, firstRegs_withKeys, advance_withKeys, writeBytes_withKeys]
    cases s.advance.writeBytes s.i.toNat (s.firstRegs x) <;> rfl
  | ldVMem x =>
    simp only [exec, execLdVMem, withKeys_i, advance_withKeys, readBytes_withKeys, loadRegs_withKeys]
    cases s.readBytes s.i.toNat (x.val + 1) <;> rfl
  | _ => rfl

/-- Settles O58, instruction by instruction: no shared operation that they use reads or writes the keys. -/
theorem otherInstructionsIgnoreTheKeys : Obligations.OtherInstructionsIgnoreTheKeys :=
  fun _ s keys hskp hsknp => exec_withKeys hskp hsknp s keys

end Sys2Proof.Machine
end

section
/-! The rows of the opcode map are the rows of the opcode table: a pattern accepts a word exactly if its mask and match do
(R75, R76). -/

namespace Sys2Proof

theorem append_eq_append_iff {m n : Nat} {x x' : BitVec m} {y y' : BitVec n} :
    x ++ y = x' ++ y' ↔ x = x' ∧ y = y' := by
  refine ⟨fun h => ⟨?_, ?_⟩, fun ⟨hx, hy⟩ => by rw [hx, hy]⟩
  · simpa only [BitVec.extractLsb'_append_eq_left] using congrArg (BitVec.extractLsb' n m) h
  · simpa only [BitVec.extractLsb'_append_eq_right] using congrArg (BitVec.extractLsb' 0 n) h

/-! ## Patterns as masks and matches -/

/-- The nibble of the mask at a position of a pattern: all ones at a literal, zero at a wildcard. -/
def maskNibble : Option Nibble → Nibble
  | some _ => 0xF
  | none => 0x0

/-- A pattern as a row of the opcode table. -/
def Pattern.maskMatch (p : Pattern) : MaskMatch :=
  ⟨maskNibble p.n3 ++ maskNibble p.n2 ++ maskNibble p.n1 ++ maskNibble p.n0,
    p.n3.getD 0 ++ p.n2.getD 0 ++ p.n1.getD 0 ++ p.n0.getD 0⟩

theorem nibbleAgrees_iff_mask (o : Option Nibble) (d : Nibble) :
    nibbleAgrees o d = true ↔ d &&& maskNibble o = o.getD 0 := by
  cases o with
  | none => exact iff_of_true rfl BitVec.and_zero
  | some lit =>
    have hones : d &&& maskNibble (some lit) = d := BitVec.and_allOnes
    rw [hones, nibbleAgrees, beq_iff_eq, eq_comm, Option.getD_some]

theorem MaskMatch.accepts_iff (m : MaskMatch) (w : Word) : m.accepts w = true ↔ w &&& m.mask = m.value := beq_iff_eq

theorem Pattern.maskMatch_accepts (p : Pattern) (w : Word) : p.maskMatch.accepts w = p.accepts w := by
  have hmask : w &&& p.maskMatch.mask = (nibble w 3 &&& maskNibble p.n3) ++ (nibble w 2 &&& maskNibble p.n2) ++
      (nibble w 1 &&& maskNibble p.n1) ++ (nibble w 0 &&& maskNibble p.n0) := by
    conv_lhs => rw [word_eq_nibbles w, maskMatch, BitVec.and_append, BitVec.and_append, BitVec.and_append]
  rw [Bool.eq_iff_iff, MaskMatch.accepts_iff, hmask, maskMatch, append_eq_append_iff, append_eq_append_iff,
    append_eq_append_iff]
  simp only [accepts, Bool.and_eq_true, nibbleAgrees_iff_mask]

/-! ## The rows of the map and of the table -/

theorem mem_opcodeTable_iff (m : MaskMatch) : m ∈ opcodeTable ↔ ∃ r ∈ opcodeRows, r.pattern.maskMatch = m := by
  have hperm : opcodeTable.Perm (opcodeRows.map (·.pattern.maskMatch)) := by decide
  rw [hperm.mem_iff, List.mem_map]

theorem maskMatch_mem_opcodeTable {r : OpcodeRow} (hr : r ∈ opcodeRows) : r.pattern.maskMatch ∈ opcodeTable :=
  (mem_opcodeTable_iff _).2 ⟨r, hr, rfl⟩

theorem eq_of_maskMatch_eq {r r' : OpcodeRow} (hr : r ∈ opcodeRows) (hr' : r' ∈ opcodeRows)
    (h : r.pattern.maskMatch = r'.pattern.maskMatch) : r = r' := by
  have hnodup : (opcodeRows.map (·.pattern.maskMatch)).Nodup := by decide
  exact List.inj_on_of_nodup_map hnodup hr hr' h

/-- The row that the table gives an instruction is the row of the map that built it. -/
theorem tableRow_build : ∀ r ∈ opcodeRows, ∀ w, tableRow (r.build w) = r.pattern.maskMatch := by
  simp [opcodeRows, rowNone, rowX, rowXY, rowXKK, rowXYN, rowNNN, tableRow, Pattern.maskMatch, maskNibble]

/-! ## The words that two rows accept -/

/-- Two rows of the table demand different values of a bit, or one of them is the row of CLS or RET. -/
theorem opcodeTable_clash : ∀ m ∈ opcodeTable, ∀ m' ∈ opcodeTable, m ≠ m' →
    m.value &&& m'.mask ≠ m'.value &&& m.mask ∨ m ∈ [tableRow .cls, tableRow .ret] ∨
      m' ∈ [tableRow .cls, tableRow .ret] := by decide

theorem eq_of_accepts_literal {m : MaskMatch} {w : Word} (hm : m ∈ [tableRow .cls, tableRow .ret])
    (h : m.accepts w = true) : w = 0x00E0 ∨ w = 0x00EE := by
  have hw : w &&& 0xFFFF = w := BitVec.and_allOnes
  rw [MaskMatch.accepts_iff] at h
  obtain rfl | rfl := List.mem_pair.1 hm
  · exact .inl (hw.symm.trans h)
  · exact .inr (hw.symm.trans h)

theorem eq_of_two_rows_accept {m m' : MaskMatch} {w : Word} (hm : m ∈ opcodeTable) (hm' : m' ∈ opcodeTable)
    (hne : m ≠ m') (h : m.accepts w = true) (h' : m'.accepts w = true) : w = 0x00E0 ∨ w = 0x00EE := by
  obtain hclash | hlit | hlit := opcodeTable_clash m hm m' hm' hne
  · rw [MaskMatch.accepts_iff] at h h'
    exact absurd (by rw [← h, ← h', BitVec.and_assoc, BitVec.and_assoc, BitVec.and_comm m.mask]) hclash
  · exact eq_of_accepts_literal hlit h
  · exact eq_of_accepts_literal hlit h'

end Sys2Proof
end

section
/-! The decoder and the rows: a word is read by the one row that accepts it, and the two words that two rows accept are read
as CLS and RET. So decoding undoes encoding and encoding undoes decoding (R72, R75, R76). -/

namespace Sys2Proof

/-! ## What a decoded word says about the rows -/

/-- A word decodes to what a row that accepts it builds, or no row accepts it. -/
theorem decode_cases (w : Word) :
    (∃ r ∈ opcodeRows, r.pattern.accepts w = true ∧ decode w = .ok (r.build w)) ∨
      ((∀ r ∈ opcodeRows, r.pattern.accepts w = false) ∧ decode w = .error (.noMatch w)) := by
  unfold decode
  split
  next r hfind =>
    have haccepts := List.find?_some hfind
    exact .inl ⟨r, List.mem_of_find?_eq_some hfind, haccepts, rfl⟩
  next hfind => exact .inr ⟨by simpa using hfind, rfl⟩

theorem exists_row_of_decode {w : Word} {i : Instr} (h : decode w = .ok i) :
    ∃ r ∈ opcodeRows, r.pattern.accepts w = true ∧ r.build w = i := by
  obtain ⟨r, hr, haccepts, hdecode⟩ | ⟨-, hdecode⟩ := decode_cases w <;> cases hdecode.symm.trans h
  exact ⟨r, hr, haccepts, rfl⟩

theorem decode_eq_noMatch_iff (w : Word) :
    decode w = .error (.noMatch w) ↔ ∀ r ∈ opcodeRows, r.pattern.accepts w = false := by
  obtain ⟨r, hr, haccepts, hdecode⟩ | ⟨hnone, hdecode⟩ := decode_cases w
  · refine iff_of_false (by simp [hdecode]) fun hnone => ?_
    cases haccepts.symm.trans (hnone r hr)
  · exact iff_of_true hdecode hnone

theorem decode_cls : decode 0x00E0 = .ok .cls := by decide

theorem decode_ret : decode 0x00EE = .ok .ret := by decide

/-- Only SYS can be ill formed, and the words of CLS and RET do not decode to it. -/
theorem wellFormed_of_decode {w : Word} {i : Instr} (h : decode w = .ok i) : i.wellFormed = true := by
  have hw := encode_of_decode h
  subst hw
  cases i with
  | sys nnn =>
    have hcls : nnn ≠ 0x0E0 := by rintro rfl; cases decode_cls.symm.trans h
    have hret : nnn ≠ 0x0EE := by rintro rfl; cases decode_ret.symm.trans h
    rw [Instr.wellFormed, bne_iff_ne.2 hcls, bne_iff_ne.2 hret]
    rfl
  | _ => rfl

/-! ## The row that accepts a word reads it -/

theorem build_eq_cls : ∀ r ∈ opcodeRows,
    r.pattern.accepts 0x00E0 = true → (r.build 0x00E0).wellFormed = true → r.build 0x00E0 = .cls := by decide

theorem build_eq_ret : ∀ r ∈ opcodeRows,
    r.pattern.accepts 0x00EE = true → (r.build 0x00EE).wellFormed = true → r.build 0x00EE = .ret := by decide

/-- A word is read by any row that accepts it, unless the row reads CLS or RET as SYS. -/
theorem decode_eq_build {r : OpcodeRow} {w : Word} (hr : r ∈ opcodeRows) (haccepts : r.pattern.accepts w = true)
    (hwf : (r.build w).wellFormed = true) : decode w = .ok (r.build w) := by
  obtain ⟨r', hr', haccepts', hdecode⟩ | ⟨hnone, -⟩ := decode_cases w
  · have hwf' := wellFormed_of_decode hdecode
    rw [hdecode]
    by_cases hrow : r.pattern.maskMatch = r'.pattern.maskMatch
    · rw [eq_of_maskMatch_eq hr hr' hrow]
    · obtain rfl | rfl := eq_of_two_rows_accept (maskMatch_mem_opcodeTable hr) (maskMatch_mem_opcodeTable hr') hrow
        ((r.pattern.maskMatch_accepts w).trans haccepts) ((r'.pattern.maskMatch_accepts w).trans haccepts')
      · rw [build_eq_cls r hr haccepts hwf, build_eq_cls r' hr' haccepts' hwf']
      · rw [build_eq_ret r hr haccepts hwf, build_eq_ret r' hr' haccepts' hwf']
  · cases haccepts.symm.trans (hnone r hr)

/-! ## The row that reads an instruction's own word -/

/-- The row accepts the instruction's word and builds the instruction from it. -/
def OpcodeRow.Reads (r : OpcodeRow) (i : Instr) : Prop := r.pattern.accepts (encode i) = true ∧ r.build (encode i) = i

namespace OpcodeRow.Reads

variable {a d : Nibble} {x y : Reg}

theorem rowX {kk : Byte} {f : Reg → Instr} (hf : encode (f x) = encodeXKK a x kk) :
    (rowX a (kk.extractLsb' 4 4) (kk.extractLsb' 0 4) f).Reads (f x) := by
  simp [Reads, hf, Sys2Proof.rowX, Pattern.accepts, nibbleAgrees]

theorem rowXY {f : Reg → Reg → Instr} (hf : encode (f x y) = encodeXYN a x y d) : (rowXY a d f).Reads (f x y) := by
  simp [Reads, hf, Sys2Proof.rowXY, Pattern.accepts, nibbleAgrees]

theorem rowXKK {kk : Byte} {f : Reg → Byte → Instr} (hf : encode (f x kk) = encodeXKK a x kk) :
    (rowXKK a f).Reads (f x kk) := by
  simp [Reads, hf, Sys2Proof.rowXKK, Pattern.accepts, nibbleAgrees]

theorem rowXYN {n : Nibble} {f : Reg → Reg → Nibble → Instr} (hf : encode (f x y n) = encodeXYN a x y n) :
    (rowXYN a f).Reads (f x y n) := by
  simp [Reads, hf, Sys2Proof.rowXYN, Pattern.accepts, nibbleAgrees]

theorem rowNNN {nnn : Addr} {f : Addr → Instr} (hf : encode (f nnn) = encodeNNN a nnn) : (rowNNN a f).Reads (f nnn) := by
  simp [Reads, hf, Sys2Proof.rowNNN, Pattern.accepts, nibbleAgrees]

/-- Every instruction has its row, found by the format of its word (R72). -/
theorem exists_row (i : Instr) : ∃ r ∈ opcodeRows, r.Reads i := by
  cases i
  case cls => exact ⟨rowNone 0x0 0x0 0xE 0x0 .cls, by simp [opcodeRows], rfl, rfl⟩
  case ret => exact ⟨rowNone 0x0 0x0 0xE 0xE .ret, by simp [opcodeRows], rfl, rfl⟩
  case skp x | sknp x | ldVDt x | ldVK x | ldDtV x | ldStV x | addI x | ldF x | ldB x | ldMemV x | ldVMem x =>
    exact ⟨_, by simp [opcodeRows], rowX rfl⟩
  case seReg x y | ldReg x y | orReg x y | andReg x y | xorReg x y | addReg x y | sub x y | shr x y | subn x y |
      shl x y | sneReg x y =>
    exact ⟨_, by simp [opcodeRows], rowXY rfl⟩
  case seImm x kk | sneImm x kk | ldImm x kk | addImm x kk | rnd x kk => exact ⟨_, by simp [opcodeRows], rowXKK rfl⟩
  case drw x y n => exact ⟨_, by simp [opcodeRows], rowXYN rfl⟩
  case sys nnn | jp nnn | call nnn | ldI nnn | jpV0 nnn => exact ⟨_, by simp [opcodeRows], rowNNN rfl⟩

end OpcodeRow.Reads

/-- Settles O2: the row of the instruction's format reads its own word, and a well-formed instruction is read by any row
that accepts its word. -/
theorem decodeOfEncode : Obligations.DecodeOfEncode := by
  intro i hwf
  obtain ⟨r, hr, haccepts, hbuild⟩ := OpcodeRow.Reads.exists_row i
  rw [decode_eq_build hr haccepts (hbuild.symm ▸ hwf), hbuild]

/-- Settles O3: every row reads exactly, and the words of CLS and RET never decode to SYS. -/
theorem encodeOfDecode : Obligations.EncodeOfDecode := fun _ _ h => ⟨encode_of_decode h, wellFormed_of_decode h⟩

/-- The rows of CLS and RET have more literal nibbles than any other row that accepts their words. -/
theorem literals_lt_of_two_rows : ∀ i ∈ [Instr.cls, .ret], ∀ m ∈ opcodeTable,
    m.accepts (encode i) = true → m ≠ tableRow i → m.literals < (tableRow i).literals := by decide

/-- Settles O5: the masks and matches accept what the patterns do, and of two rows that accept a word one is CLS's or
RET's. -/
theorem mostSpecificPatternWins : Obligations.MostSpecificPatternWins := by
  refine ⟨fun w i h => ?_, fun w => ?_, fun w => ⟨?_, ?_⟩⟩
  · obtain ⟨r, hr, haccepts, hbuild⟩ := exists_row_of_decode h
    have hrow : r.pattern.maskMatch = tableRow i := by rw [← hbuild, tableRow_build r hr w]
    have hmem : tableRow i ∈ opcodeTable := hrow ▸ maskMatch_mem_opcodeTable hr
    have htable : (tableRow i).accepts w = true := by rw [← hrow, Pattern.maskMatch_accepts, haccepts]
    refine ⟨hmem, htable, fun m hm hm' hne => ?_⟩
    have hliteral : i ∈ [Instr.cls, .ret] := by
      obtain rfl | rfl := eq_of_two_rows_accept hm hmem hne hm' htable
      · cases decode_cls.symm.trans h
        exact List.mem_pair.2 (.inl rfl)
      · cases decode_ret.symm.trans h
        exact List.mem_pair.2 (.inr rfl)
    exact literals_lt_of_two_rows i hliteral m hm (by rwa [encode_of_decode h]) hne
  · simp [decode_eq_noMatch_iff, mem_opcodeTable_iff, Pattern.maskMatch_accepts]
  · rintro ⟨m, hm, m', hm', hne, h, h'⟩
    exact eq_of_two_rows_accept hm hm' hne h h'
  · rintro (rfl | rfl)
    · exact ⟨tableRow (.sys 0), by decide, tableRow .cls, by decide⟩
    · exact ⟨tableRow (.sys 0), by decide, tableRow .ret, by decide⟩

/-- Settles O1, by running the decoder on the thirteen words. -/
theorem decodesTheSpecsWords : Obligations.DecodesTheSpecsWords := by
  unfold Obligations.DecodesTheSpecsWords
  decide

end Sys2Proof
end

section
/-! The words that do not decode, by the nibbles that the patterns look at (R78). -/

namespace Sys2Proof

theorem fieldKK_eq_append_iff (w : Word) (c d : Nibble) : fieldKK w = c ++ d ↔ nibble w 1 = c ∧ nibble w 0 = d := by
  have hjoin : nibble w 1 ++ nibble w 0 = fieldKK w := BitVec.extractLsb'_append_extractLsb'_eq_extractLsb' rfl
  rw [← hjoin, append_eq_append_iff]

/-! ## What each kind of pattern looks at -/

namespace Pattern

variable (w : Word) (a c d : Nibble)

theorem accepts_lead : accepts ⟨some a, none, none, none⟩ w = decide (nibble w 3 = a) := by
  rw [Bool.eq_iff_iff, accepts_iff, decide_eq_true_iff, eq_comm (a := nibble w 3)]
  simp

theorem accepts_lead_last : accepts ⟨some a, none, none, some d⟩ w = decide ((nibble w 3, nibble w 0) = (a, d)) := by
  rw [Bool.eq_iff_iff, accepts_iff, decide_eq_true_iff, eq_comm (b := (a, d))]
  simp

theorem accepts_lead_kk :
    accepts ⟨some a, none, some c, some d⟩ w = decide ((nibble w 3, fieldKK w) = (a, c ++ d)) := by
  rw [Bool.eq_iff_iff, accepts_iff, decide_eq_true_iff, Prod.mk.injEq, fieldKK_eq_append_iff]
  simp [@eq_comm _ (nibble w _)]

variable {w a}

theorem accepts_eq_false_of_lead {p : Pattern} (hp : p.n3 = some a) (h : nibble w 3 ≠ a) : p.accepts w = false := by
  refine Bool.eq_false_iff.2 fun haccepts => h ?_
  obtain ⟨hlead, -⟩ := (accepts_iff p w).1 haccepts
  exact (hlead a hp).symm

end Pattern

/-! ## The illegal words -/

/-- The literals of the rows, by the part of the word they look at beside the first nibble: its last byte, its last nibble,
nothing. The rows of CLS and RET add no word, since SYS's row accepts theirs. -/
theorem decode_eq_noMatch_iff_fields (w : Word) : decode w = .error (.noMatch w) ↔
    (nibble w 3, fieldKK w) ∉ [((0xE, 0x9E) : Nibble × Byte), (0xE, 0xA1), (0xF, 0x07), (0xF, 0x0A), (0xF, 0x15),
      (0xF, 0x18), (0xF, 0x1E), (0xF, 0x29), (0xF, 0x33), (0xF, 0x55), (0xF, 0x65)] ∧
    (nibble w 3, nibble w 0) ∉ [((0x5, 0x0) : Nibble × Nibble), (0x8, 0x0), (0x8, 0x1), (0x8, 0x2), (0x8, 0x3),
      (0x8, 0x4), (0x8, 0x5), (0x8, 0x6), (0x8, 0x7), (0x8, 0xE), (0x9, 0x0)] ∧
    nibble w 3 ∉ [0x0, 0x1, 0x2, 0x3, 0x4, 0x6, 0x7, 0xA, 0xB, 0xC, 0xD] := by
  rw [decode_eq_noMatch_iff, opcodeRows, List.append_assoc, List.append_assoc, List.forall_mem_append,
    and_iff_right_of_imp]
  · simp [rowX, rowXY, rowXKK, rowXYN, rowNNN, Pattern.accepts_lead, Pattern.accepts_lead_last, Pattern.accepts_lead_kk,
      and_assoc]
  · intro hrest
    have hsys := hrest (rowNNN 0x0 .sys) (by simp)
    rw [rowNNN, Pattern.accepts_lead, decide_eq_false_iff_not] at hsys
    have hliteral (b c d : Nibble) (i : Instr) : (rowNone 0x0 b c d i).pattern.accepts w = false :=
      Pattern.accepts_eq_false_of_lead rfl hsys
    exact List.forall_mem_cons.2 ⟨hliteral .., List.forall_mem_singleton.2 (hliteral ..)⟩

/-- Settles O4, by the first nibble: five of its sixteen values have illegal words. -/
theorem illegalWordsAreTheFiveClasses : Obligations.IllegalWordsAreTheFiveClasses := by
  intro w
  rw [decode_eq_noMatch_iff_fields]
  generalize nibble w 3 = a, nibble w 0 = n, fieldKK w = kk
  have h8 : n ∈ [0x8, 0x9, 0xA, 0xB, 0xC, 0xD, 0xF] ↔ n ∉ [0x0, 0x1, 0x2, 0x3, 0x4, 0x5, 0x6, 0x7, 0xE] := by
    decide +revert
  by_cases ha : a ∈ [0x5, 0x8, 0x9, 0xE, 0xF]
  · rw [h8]
    simp only [List.mem_cons, List.not_mem_nil, or_false] at ha
    obtain rfl | rfl | rfl | rfl | rfl := ha <;> simp
  · have hleads : a ∈ [0x0, 0x1, 0x2, 0x3, 0x4, 0x6, 0x7, 0xA, 0xB, 0xC, 0xD] := by decide +revert
    refine iff_of_false (fun ⟨_, _, hlead⟩ => hlead hleads) ?_
    rintro (⟨rfl, -⟩ | ⟨rfl, -⟩ | ⟨rfl, -⟩ | ⟨rfl, -⟩ | ⟨rfl, -⟩) <;> simp at ha

end Sys2Proof
end

section
/-! Control flow: what SYS, the jumps, CALL, RET and the skips do to PC, SP and the stack, each in one equation (R93 to
R102). -/

namespace Sys2Proof

/-- The word of a well-formed instruction agrees with its row of the opcode table and is read back (R75, R76). -/
theorem encoded_tableRow {i : Instr} (hwf : i.wellFormed = true) : Encoded i (tableRow i).mask (tableRow i).value := by
  have hdecode := decodeOfEncode i hwf
  obtain ⟨hrow, -⟩ := mostSpecificPatternWins
  obtain ⟨-, haccepts, -⟩ := hrow _ i hdecode
  exact ⟨beq_iff_eq.1 haccepts, hdecode⟩

end Sys2Proof

namespace Sys2Proof.Machine

variable {s : State}

/-! ## Frames -/

theorem unchanged_setPc (s : State) (pc : Word) : Unchanged s { s with pc := pc } {.pc} := by
  intro f hf
  cases f with
  | pc => exact absurd rfl hf
  | _ => rfl

theorem unchanged_setSp_setPc (s : State) (sp : BitVec 5) (pc : Word) :
    Unchanged s { s with sp := sp, pc := pc } {.pc, .sp} := by
  intro f hf
  cases f with
  | pc | sp => simp at hf
  | _ => rfl

/-- A push and a jump leave every slot but the one at SP. -/
theorem unchanged_push_setPc (h : s.sp.toNat < 16) (w : Word) (sp : BitVec 5) (pc : Word) :
    Unchanged s { s with stack := s.stack.set s.sp.toNat w, sp := sp, pc := pc }
      {.pc, .sp, .slot ⟨s.sp.toNat, h⟩} := by
  intro f hf
  cases f with
  | pc | sp => simp at hf
  | slot k =>
    have hne : s.sp.toNat ≠ k.val := fun he => hf (.inr (.inr (congrArg Field.slot (Fin.ext he.symm))))
    exact Vector.getElem_set_ne h k.isLt hne
  | _ => rfl

/-! ## What the instructions do -/

theorem exec_sys_eq_next (nnn : Addr) (hparam : s.config.sysFaults = false) : exec (.sys nnn) s = .next s.advance := by
  simp [exec, execSys, hparam]

/-- CALL with a free slot (R96). -/
theorem exec_call_eq_next (nnn : Addr) (h : s.sp.toNat < 16) :
    exec (.call nnn) s =
      .next { s with stack := s.stack.set s.sp.toNat (s.pc + 2), sp := s.sp + 1, pc := addressOf nnn } := by
  have hfree : s.sp ≠ 16 := by bv_omega
  have hpush := (push_eq_some s.advance _ s.advance.pc).2 ⟨h, rfl⟩
  simp only [exec, execCall, if_neg hfree, hpush]
  rfl

/-- CALL with every slot occupied (R96, R162). -/
theorem exec_call_eq_raise (nnn : Addr) (h : s.sp.toNat = 16) :
    exec (.call nnn) s = .next (s.raise .stackOverflow (encode (.call nnn)) 16) :=
  if_pos (BitVec.eq_of_toNat_eq h)

/-- RET with a slot occupied (R97). -/
theorem exec_ret_eq_next (hpos : 0 < s.sp.toNat) (hle : s.sp.toNat ≤ 16) :
    exec .ret s = .next { s with sp := s.sp - 1, pc := s.stack[s.sp.toNat - 1] } := by
  have hused : s.sp ≠ 0 := by bv_omega
  have htop : (s.sp - 1).toNat = s.sp.toNat - 1 := by bv_omega
  have hpop := (pop_eq_some s.advance _).2 ⟨show (s.sp - 1).toNat < 16 by omega, rfl⟩
  simp only [exec, execRet, if_neg hused, hpop, advance_sp, advance_stack, htop]
  rfl

/-- RET with no slot occupied (R97). -/
theorem exec_ret_eq_raise (h : s.sp.toNat = 0) : exec .ret s = .next (s.raise .stackUnderflow 0x00EE 0) :=
  if_pos (BitVec.eq_of_toNat_eq h)

/-- A skip that takes its decision from a comparison: four further, or two (R102). -/
theorem advance_skipIf_eq (s : State) (c : Bool) :
    s.advance.skipIf c = { s with pc := if c then s.pc + 4 else s.pc + 2 } := by
  cases c with
  | false => rfl
  | true =>
    have htwice : s.pc + 2 + 2 = s.pc + 4 := BitVec.add_assoc _ _ _
    rw [skipIf_eq, if_pos rfl, if_pos rfl, ← htwice]
    rfl

/-- What every comparison skip answers: its decision moves PC and nothing else. -/
theorem skip_answers {o : Host.Outcome State Fault Refusal} {c : Bool} (h : o = .next (s.advance.skipIf c)) :
    ∃ t, o = .next t ∧ t.pc = (if c then s.pc + 4 else s.pc + 2) ∧ Unchanged s t {.pc} := by
  rw [advance_skipIf_eq] at h
  exact ⟨_, h, rfl, unchanged_setPc _ _⟩

theorem toNat_addressOf (nnn : Addr) : (addressOf nnn).toNat = nnn.toNat := by
  unfold addressOf
  bv_omega

/-- The sum of an address and a byte fits in PC: it is not masked (R95). -/
theorem toNat_addressOf_add_wordOf (nnn : Addr) (b : Byte) :
    (addressOf nnn + wordOf b).toNat = nnn.toNat + b.toNat := by
  unfold addressOf wordOf
  bv_omega

/-! ## The obligations -/

/-- Settles O25: with its parameter off SYS is the advance of PC, and its word is one of the others of its row. -/
theorem sysIsANoOp : Obligations.SysIsANoOp := by
  refine fun nnn s hparam => ⟨⟨_, exec_sys_eq_next nnn hparam, rfl, unchanged_setPc _ _⟩, fun hcls hret => ?_⟩
  have hwf : (Instr.sys nnn).wellFormed = true := Bool.and_eq_true_iff.2 ⟨bne_iff_ne.2 hcls, bne_iff_ne.2 hret⟩
  exact encoded_tableRow hwf

/-- Settles O27: a jump writes PC alone, and the target fits in it. -/
theorem jumpsSetThePc : Obligations.JumpsSetThePc := fun nnn s =>
  ⟨⟨_, rfl, toNat_addressOf nnn, unchanged_setPc _ _⟩,
   ⟨_, rfl, toNat_addressOf_add_wordOf nnn (s.reg 0), unchanged_setPc _ _⟩,
   encoded_tableRow (i := .jp nnn) rfl, encoded_tableRow (i := .jpV0 nnn) rfl⟩

/-- Settles O28: with SP below 16 the push answers, with SP = 16 the fault comes first. -/
theorem callPushesAndJumps : Obligations.CallPushesAndJumps := by
  refine fun nnn s => ⟨fun h => ?_, fun h => ?_, encoded_tableRow (i := .call nnn) rfl⟩
  · have hsp : (s.sp + 1).toNat = s.sp.toNat + 1 := by bv_omega
    exact ⟨_, exec_call_eq_next nnn h, Vector.getElem_set_self _, hsp, toNat_addressOf nnn,
      unchanged_push_setPc h _ _ _⟩
  · exact ⟨_, exec_call_eq_raise nnn h, rfl, rfl, unchanged_raise s _ _ _⟩

/-- Settles O29: with SP from 1 to 16 the pop answers, with SP = 0 the fault comes first. -/
theorem returnPopsThePc : Obligations.ReturnPopsThePc := by
  refine fun s => ⟨fun hpos hle => ?_, fun h => ?_, encoded_tableRow (i := .ret) rfl⟩
  · have hsp : (s.sp - 1).toNat = s.sp.toNat - 1 := by bv_omega
    exact ⟨_, exec_ret_eq_next hpos hle, hsp, rfl, unchanged_setSp_setPc s _ _⟩
  · exact ⟨_, exec_ret_eq_raise h, rfl, rfl, unchanged_raise s _ _ _⟩

/-- Settles O31: RET reads the slot that CALL wrote, since the body left SP one above it and the slot as it was. -/
theorem returnGoesBackToTheCaller : Obligations.ReturnGoesBackToTheCaller := by
  intro nnn s t body hfree hcall hsp hstack
  cases (exec_call_eq_next nnn hfree).symm.trans hcall
  have htop : body.sp.toNat = s.sp.toNat + 1 := by
    rw [hsp]
    bv_omega
  refine ⟨_, exec_ret_eq_next (by omega) (by omega), ?_, ?_⟩
  · simp only [htop, hstack, Nat.add_sub_cancel]
    exact Vector.getElem_set_self _
  · simp only [hsp]
    exact BitVec.add_sub_cancel _ _

/-- Settles O32: each skip is the shared skip with the decision of its own comparison. -/
theorem comparisonSkips : Obligations.ComparisonSkips := by
  refine fun x y kk s => ⟨?_, ?_, ?_, ?_, encoded_tableRow (i := .seImm x kk) rfl,
    encoded_tableRow (i := .sneImm x kk) rfl, encoded_tableRow (i := .seReg x y) rfl,
    encoded_tableRow (i := .sneReg x y) rfl⟩
  · simpa using skip_answers (s := s) (o := exec (.seImm x kk) s) rfl
  · simpa using skip_answers (s := s) (o := exec (.sneImm x kk) s) rfl
  · simpa using skip_answers (s := s) (o := exec (.seReg x y) s) rfl
  · simpa using skip_answers (s := s) (o := exec (.sneReg x y) s) rfl

end Sys2Proof.Machine
end

section
/-! Register and arithmetic instructions: the loads, the logic, the flag-writing arithmetic and RND (R110 to R123). -/

namespace Sys2Proof.Machine

variable {s t u : State}

/-! ## Frames -/

/-- Two changes one after the other touch the places of the one and of the other. -/
theorem Unchanged.trans {A B : Set Field} (hst : Unchanged s t A) (htu : Unchanged t u B) : Unchanged s u (A ∪ B) := by
  intro f hf
  have hs := hst f fun hA => hf (.inl hA)
  have ht := htu f fun hB => hf (.inr hB)
  cases f <;> exact Eq.trans ht hs

theorem unchanged_setReg (s : State) (x : Reg) (b : Byte) : Unchanged s (s.setReg x b) {.v x} := by
  intro f hf
  cases f with
  | v r =>
    have hne : r ≠ x := fun he => hf (congrArg Field.v he)
    exact (reg_setReg s x r b).trans (if_neg hne)
  | _ => rfl

theorem unchanged_advance_setReg (s : State) (x : Reg) (b : Byte) :
    Unchanged s (s.advance.setReg x b) {.pc, .v x} :=
  (unchanged_setPc s _).trans (unchanged_setReg s.advance x b)

theorem unchanged_advance_setWithFlag (s : State) (x : Reg) (b : Byte) (f : Bool) :
    Unchanged s (s.advance.setWithFlag x b f) {.pc, .v x, .v 15} :=
  (unchanged_setPc s _).trans ((unchanged_setReg s.advance x b).trans (unchanged_setReg _ 15 _))

theorem unchanged_setRandom (s : State) (rest : List Byte) (n : Nat) :
    Unchanged s { s with randomInput := rest, randomTaken := n } {.randomInput, .randomTaken} := by
  intro f hf
  cases f with
  | randomInput | randomTaken => simp at hf
  | _ => rfl

/-! ## What is in the registers written (R20, R111) -/

theorem reg_setReg_self (s : State) (x : Reg) (b : Byte) : (s.setReg x b).reg x = b := by simp

theorem reg_setWithFlag_self (s : State) {x : Reg} (hx : x ≠ 15) (b : Byte) (f : Bool) :
    (s.setWithFlag x b f).reg x = b := by simp [hx]

theorem reg_setWithFlag_flag (s : State) (x : Reg) (b : Byte) (f : Bool) :
    (s.setWithFlag x b f).reg 15 = flagByte f := by simp

/-! ## The result as a number (R110) -/

theorem toNat_addByte (a b : Byte) : (addByte a b).toNat = (a.toNat + b.toNat) % 256 := BitVec.toNat_add a b

theorem natCast_toNat_subByte (a b : Byte) : ((subByte a b).toNat : Int) = (a.toNat - b.toNat : Int) % 256 := by
  have ha := a.isLt
  have hb := b.isLt
  rw [subByte, BitVec.toNat_sub]
  omega

theorem toNat_shiftRightByte (a : Byte) : (shiftRightByte a).toNat = a.toNat / 2 := by
  rw [shiftRightByte, BitVec.toNat_ushiftRight, Nat.shiftRight_one]

theorem toNat_shiftLeftByte (a : Byte) : (shiftLeftByte a).toNat = a.toNat * 2 % 256 := by
  rw [shiftLeftByte, BitVec.toNat_shiftLeft, Nat.shiftLeft_eq]

/-! ## The flag as a number (R30, R31) -/

theorem toNat_flagByte_carryOut (a b : Byte) :
    (flagByte (carryOut a b)).toNat = if a.toNat + b.toNat > 255 then 1 else 0 := by
  simp [carryOut]

theorem toNat_flagByte_noBorrow (a b : Byte) :
    (flagByte (noBorrow a b)).toNat = if a.toNat ≥ b.toNat then 1 else 0 := by
  simp [noBorrow]

/-- The bit a right shift moves out is the remainder of the halving. -/
theorem toNat_flagByte_lowBit (a : Byte) : (flagByte (lowBit a)).toNat = a.toNat % 2 := by
  rw [toNat_flagByte, lowBit, BitVec.getLsbD, Nat.testBit_zero]
  simp only [decide_eq_true_eq]
  split <;> omega

/-- The bit a left shift moves out is the carry of the doubling. -/
theorem toNat_flagByte_highBit (a : Byte) : (flagByte (highBit a)).toNat = a.toNat / 128 := by
  have ha := a.isLt
  rw [toNat_flagByte, highBit, BitVec.getLsbD, Nat.testBit_eq_decide_div_mod_eq]
  simp only [decide_eq_true_eq]
  split <;> omega

/-! ## RND with a byte at the front of the input -/

theorem takeRandom_eq_of_cons {r : Byte} {rest : List Byte} (h : s.randomInput = r :: rest) :
    s.takeRandom = (r, { s with randomInput := rest, randomTaken := s.randomTaken + 1 }) := by
  simp [State.takeRandom, h]

/-- RND writes V[x] and takes the front byte, and no more (R123). -/
theorem exec_rnd_eq_next {r : Byte} {rest : List Byte} (x : Reg) (kk : Byte) (h : s.randomInput = r :: rest) :
    exec (.rnd x kk) s =
      .next { s.advance.setReg x (r &&& kk) with randomInput := rest, randomTaken := s.randomTaken + 1 } := by
  simp only [exec, execRnd, takeRandom_eq_of_cons (s := s.advance) h]
  rfl

/-! ## The obligations -/

/-- Settles O33: each of the three is an advance of PC and one register write. -/
theorem loadsAndAddImmediate : Obligations.LoadsAndAddImmediate := fun x y kk s =>
  ⟨⟨_, rfl, reg_setReg_self _ x kk, rfl, unchanged_advance_setReg s x _⟩,
   ⟨_, rfl, by rw [reg_setReg_self, toNat_addByte], rfl, unchanged_advance_setReg s x _⟩,
   ⟨_, rfl, reg_setReg_self _ x (s.reg y), rfl, unchanged_advance_setReg s x _⟩,
   encoded_tableRow (i := .ldImm x kk) rfl, encoded_tableRow (i := .addImm x kk) rfl,
   encoded_tableRow (i := .ldReg x y) rfl⟩

/-- Settles O34: the value written is the bitwise operation on the two old registers. -/
theorem logicBitByBit : Obligations.LogicBitByBit := fun x y s =>
  ⟨⟨_, rfl, fun k => by rw [reg_setReg_self, BitVec.getLsbD_or], rfl, unchanged_advance_setReg s x _⟩,
   ⟨_, rfl, fun k => by rw [reg_setReg_self, BitVec.getLsbD_and], rfl, unchanged_advance_setReg s x _⟩,
   ⟨_, rfl, fun k => by rw [reg_setReg_self, BitVec.getLsbD_xor], rfl, unchanged_advance_setReg s x _⟩,
   encoded_tableRow (i := .orReg x y) rfl, encoded_tableRow (i := .andReg x y) rfl,
   encoded_tableRow (i := .xorReg x y) rfl⟩

/-- Settles O35: the flag is written after the sum, so V[15] holds it whatever x is. -/
theorem addSetsTheCarry : Obligations.AddSetsTheCarry := fun x y s =>
  ⟨⟨_, rfl, fun hx => by rw [reg_setWithFlag_self _ hx, toNat_addByte],
    by rw [reg_setWithFlag_flag, toNat_flagByte_carryOut], rfl, unchanged_advance_setWithFlag s x _ _⟩,
   encoded_tableRow (i := .addReg x y) rfl⟩

/-- Settles O36: SUBN is SUB with the operands swapped, in the difference and in the comparison. -/
theorem subtractionsSetNoBorrow : Obligations.SubtractionsSetNoBorrow := fun x y s =>
  ⟨⟨_, rfl, fun hx => by rw [reg_setWithFlag_self _ hx, natCast_toNat_subByte],
    by rw [reg_setWithFlag_flag, toNat_flagByte_noBorrow], rfl, unchanged_advance_setWithFlag s x _ _⟩,
   ⟨_, rfl, fun hx => by rw [reg_setWithFlag_self _ hx, natCast_toNat_subByte],
    by rw [reg_setWithFlag_flag, toNat_flagByte_noBorrow], rfl, unchanged_advance_setWithFlag s x _ _⟩,
   encoded_tableRow (i := .sub x y) rfl, encoded_tableRow (i := .subn x y) rfl⟩

/-- Settles O37: the shifts halve and double V[x], the flag is what that loses, and neither meaning reads y. -/
theorem shiftsMoveOneBitOut : Obligations.ShiftsMoveOneBitOut := fun x y s =>
  ⟨⟨_, rfl, fun hx => by rw [reg_setWithFlag_self _ hx, toNat_shiftRightByte],
    by rw [reg_setWithFlag_flag, toNat_flagByte_lowBit], rfl, unchanged_advance_setWithFlag s x _ _⟩,
   ⟨_, rfl, fun hx => by rw [reg_setWithFlag_self _ hx, toNat_shiftLeftByte],
    by rw [reg_setWithFlag_flag, toNat_flagByte_highBit], rfl, unchanged_advance_setWithFlag s x _ _⟩,
   fun _ => ⟨rfl, rfl⟩,
   encoded_tableRow (i := .shr x y) rfl, encoded_tableRow (i := .shl x y) rfl⟩

/-- Settles O38: the byte at the front is taken, and the masked byte is the one register write. -/
theorem rndTakesOneByte : Obligations.RndTakesOneByte := fun x kk _ rest s h =>
  ⟨⟨_, exec_rnd_eq_next x kk h, reg_setReg_self s.advance x _, rfl, rfl, rfl,
    (unchanged_setPc s _).trans ((unchanged_setReg s.advance x _).trans (unchanged_setRandom _ rest _))⟩,
   encoded_tableRow (i := .rnd x kk) rfl⟩

end Sys2Proof.Machine
end

section
/-! Keys: the key-wait poll, what ends a key wait, and the instructions that read a key or wait for one (R139 to R143,
R180). -/

namespace Sys2Proof.Machine

variable {s : State}

/-! ## The poll (R142, R143) -/

theorem step_eq_keyWaitPoll (hwait : s.mode = .awaitingKey) : step s = .next s.keyWaitPoll := by
  simp only [step, hwait]

theorem keyWaitPoll_eq_self (hnone : ∀ k : Reg, s.key k = false) : s.keyWaitPoll = s := by
  simp only [State.keyWaitPoll, (lowestKey_eq_none s).2 hnone]

theorem keyWaitPoll_eq_setReg {k : Reg} (hk : s.key k = true) (hlow : ∀ j : Reg, j < k → s.key j = false) :
    s.keyWaitPoll = { s.setReg s.waitReg (BitVec.ofNat 8 k.val) with mode := .running } := by
  simp only [State.keyWaitPoll, (lowestKey_eq_some s k).2 ⟨hk, hlow⟩]

/-- A poll that ends the wait has found a key pressed, and the mode is Running. -/
theorem keyWaitPoll_ends (hwait : s.mode = .awaitingKey) (hends : s.keyWaitPoll.mode ≠ .awaitingKey) :
    (∃ k : Reg, s.key k = true) ∧ s.keyWaitPoll.mode = .running := by
  cases hfound : s.lowestKey with
  | none => exact absurd (by rw [keyWaitPoll_eq_self ((lowestKey_eq_none s).1 hfound), hwait]) hends
  | some k =>
    obtain ⟨hk, hlow⟩ := (lowestKey_eq_some s k).1 hfound
    exact ⟨⟨k, hk⟩, by rw [keyWaitPoll_eq_setReg hk hlow]⟩

/-! ## Load and the mode (R194, R195) -/

@[simp] theorem mode_pokeBytes (s : State) (base : Nat) (bs : List Byte) : (s.pokeBytes base bs).mode = s.mode := by
  rw [pokeBytes_frame]

theorem mode_load_of_fits {bytes : List Byte} (h : bytes.length ≤ 0xE00) : (s.load bytes).mode = s.mode := by
  rw [State.load, if_pos h]
  exact mode_pokeBytes s _ _

theorem mode_load_of_oversize {bytes : List Byte} (h : bytes.length > 0xE00) : (s.load bytes).mode = .faulted := by
  rw [State.load, if_neg (by omega)]
  rfl

/-! ## Frames -/

theorem unchanged_setMode (s : State) (mode : Mode) : Unchanged s { s with mode := mode } {.mode} := by
  intro f hf
  cases f with
  | mode => exact absurd rfl hf
  | _ => rfl

theorem unchanged_setWaitReg (s : State) (x : Reg) : Unchanged s { s with waitReg := x } {.waitReg} := by
  intro f hf
  cases f with
  | waitReg => exact absurd rfl hf
  | _ => rfl

/-! ## What SKP and SKNP do (R139, R140) -/

theorem exec_skp_eq_next {x k : Reg} (h : (s.reg x).toNat = k.val) :
    exec (.skp x) s = .next (s.advance.skipIf (s.key k)) := by
  simp only [exec, execSkp, (keyCode_eq_some _ _).2 h]

theorem exec_sknp_eq_next {x k : Reg} (h : (s.reg x).toNat = k.val) :
    exec (.sknp x) s = .next (s.advance.skipIf (!s.key k)) := by
  simp only [exec, execSknp, (keyCode_eq_some _ _).2 h]

theorem exec_skp_eq_raise {x : Reg} (h : (s.reg x).toNat > 0xF) :
    exec (.skp x) s = .next (s.raise .invalidKey (encode (.skp x)) (wordOf (s.reg x))) := by
  simp only [exec, execSkp, (keyCode_eq_none _).2 h]

theorem exec_sknp_eq_raise {x : Reg} (h : (s.reg x).toNat > 0xF) :
    exec (.sknp x) s = .next (s.raise .invalidKey (encode (.sknp x)) (wordOf (s.reg x))) := by
  simp only [exec, execSknp, (keyCode_eq_none _).2 h]

/-- What every instruction that takes a fault answers: Faulted with the record, and no other place changed (R164). -/
theorem raise_answers {o : Host.Outcome State Fault Refusal} {cause : Cause} {word info : Word}
    (h : o = .next (s.raise cause word info)) :
    ∃ t, o = .next t ∧ t.mode = .faulted ∧ t.fault = ⟨cause, s.pc, word, info⟩ ∧ Unchanged s t {.mode, .fault} :=
  ⟨_, h, rfl, rfl, unchanged_raise s _ _ _⟩

/-! ## The obligations -/

/-- Settles O50, by the command: Reset leaves the wait, a Load only by its fault, a Step only by a poll that finds a key;
Tick and SetKey keep the mode. -/
theorem keyWaitEndsOnlyByKeyOrReset : Obligations.KeyWaitEndsOnlyByKeyOrReset := by
  intro s t c hwait h hends
  cases c with
  | reset => exact .inl rfl
  | load bytes =>
    cases h
    have hbig : bytes.length > 0xE00 := by
      by_contra hfits
      exact hends ((mode_load_of_fits (by omega)).trans hwait)
    exact .inr (.inr ⟨bytes, rfl, hbig, mode_load_of_oversize hbig⟩)
  | step random =>
    have hwait' : State.mode { s with randomInput := [random] } = .awaitingKey := hwait
    cases (step_eq_keyWaitPoll hwait').symm.trans h
    exact .inr (.inl ⟨random, rfl, keyWaitPoll_ends hwait' hends⟩)
  | tick | setKey =>
    cases h
    exact absurd hwait hends

/-- Settles O9: with a key pressed the poll is one register write and the change of mode, and a key code fits in a byte. -/
theorem keyWaitPollTakesTheLowestKey : Obligations.KeyWaitPollTakesTheLowestKey := by
  refine fun s hwait => ⟨fun hnone => ?_, fun k hk hlow => ?_⟩
  · rw [step_eq_keyWaitPoll hwait, keyWaitPoll_eq_self hnone]
  · rw [step_eq_keyWaitPoll hwait, keyWaitPoll_eq_setReg hk hlow]
    have hcode : (BitVec.ofNat 8 k.val).toNat = k.val := Nat.mod_eq_of_lt (by omega)
    have hreg := reg_setReg_self s s.waitReg (BitVec.ofNat 8 k.val)
    exact ⟨_, rfl, (congrArg BitVec.toNat hreg).trans hcode, rfl,
      (unchanged_setMode s .running).trans (unchanged_setReg _ s.waitReg _)⟩

/-- Settles O48: a code of a key gives the shared skip with that key's decision, any other byte the fault. -/
theorem keySkips : Obligations.KeySkips := by
  refine fun x s => ⟨fun k h => ⟨skip_answers (exec_skp_eq_next h), ?_⟩, fun h =>
    ⟨raise_answers (exec_skp_eq_raise h), raise_answers (exec_sknp_eq_raise h)⟩,
    encoded_tableRow (i := .skp x) rfl, encoded_tableRow (i := .sknp x) rfl⟩
  have hskip := skip_answers (exec_sknp_eq_next h)
  cases hkey : s.key k <;> simpa [hkey] using hskip

/-- Settles O49: the meaning writes PC, MODE and WAIT_REG, and reads no key. -/
theorem waitForKeyEntersAwaitingKey : Obligations.WaitForKeyEntersAwaitingKey := fun x s =>
  ⟨⟨_, rfl, rfl, rfl, rfl,
    (unchanged_setPc s _).trans ((unchanged_setMode s.advance .awaitingKey).trans (unchanged_setWaitReg _ x))⟩,
   encoded_tableRow (i := .ldVK x) rfl⟩

end Sys2Proof.Machine
end

section
/-! Address register, memory and timer instructions: the loads of I, the stores and the load of many bytes, and the timer
moves (R130 to R138). -/

namespace Sys2Proof.Machine

variable {s : State}

/-! ## Frames -/

theorem unchanged_setI (s : State) (a : Word) : Unchanged s { s with i := a } {.i} := by
  intro f hf
  cases f with
  | i => exact absurd rfl hf
  | _ => rfl

theorem unchanged_advance_setI (s : State) (a : Word) : Unchanged s { s.advance with i := a } {.pc, .i} :=
  (unchanged_setPc s _).trans (unchanged_setI s.advance a)

theorem unchanged_setDt (s : State) (b : Byte) : Unchanged s { s with dt := b } {.dt} := by
  intro f hf
  cases f with
  | dt => exact absurd rfl hf
  | _ => rfl

theorem unchanged_setSt (s : State) (b : Byte) : Unchanged s { s with st := b } {.st} := by
  intro f hf
  cases f with
  | st => exact absurd rfl hf
  | _ => rfl

/-- A store of many bytes touches the places it stores to. -/
theorem unchanged_pokeBytes (s : State) (base : Nat) (bs : List Byte) :
    Unchanged s (s.pokeBytes base bs) (memPlaces base bs.length) := by
  intro f hf
  cases f with
  | mem a =>
    have hout : ¬(base ≤ a ∧ a - base < bs.length) := fun ⟨hle, hlt⟩ =>
      hf ⟨a - base, hlt, by rw [Nat.add_sub_cancel' hle]⟩
    exact (peek_pokeBytes s base a bs).trans (dif_neg hout)
  | _ =>
    rw [pokeBytes_frame]
    rfl

/-- A load of x + 1 bytes touches V[0]..V[x]. -/
theorem unchanged_loadRegs (s : State) {x : Reg} {bs : List Byte} (hlen : bs.length = x.val + 1) :
    Unchanged s (s.loadRegs 0 bs) (regsUpTo x) := by
  intro f hf
  cases f with
  | v r =>
    have hout : ¬(0 ≤ r.val ∧ r.val - 0 < bs.length) := fun ⟨_, hlt⟩ => hf ⟨r, Fin.le_def.2 (by omega), rfl⟩
    exact (reg_loadRegs s 0 bs r).trans (dif_neg hout)
  | _ =>
    rw [loadRegs_frame]
    rfl

/-! ## The addresses as numbers (R131, R132) -/

theorem toNat_wordOf (b : Byte) : (wordOf b).toNat = b.toNat := by
  unfold wordOf
  bv_omega

/-- The glyph address of every byte fits in I: it is not masked. -/
theorem toNat_glyphAddress (digit : Byte) : (glyphAddress digit).toNat = 0x050 + 5 * digit.toNat := by
  have hdigit := toNat_wordOf digit
  unfold glyphAddress
  bv_omega

/-! ## The bytes stored and loaded -/

theorem peek_pokeBytes_add (s : State) (base k : Nat) (bs : List Byte) (hk : k < bs.length) :
    (s.pokeBytes base bs).peek (base + k) = bs[k] := by
  rw [peek_pokeBytes, dif_pos ⟨by omega, by omega⟩]
  simp only [Nat.add_sub_cancel_left]

/-- The digits of a byte, as numbers (R133). -/
theorem map_toNat_decimalDigits (b : Byte) :
    (decimalDigits b).map BitVec.toNat = [b.toNat / 100, b.toNat / 10 % 10, b.toNat % 10] := by
  have hb := b.isLt
  have hdigit {n : Nat} (hn : n < 256) : (BitVec.ofNat 8 n).toNat = n := Nat.mod_eq_of_lt hn
  rw [decimalDigits, List.map_cons, List.map_cons, List.map_cons, List.map_nil, hdigit (by omega), hdigit (by omega),
    hdigit (by omega)]

/-- The k-th digit lies k bytes above the first. -/
theorem toNat_peek_pokeBytes_decimalDigits (s : State) (base : Nat) (b : Byte) {k : Nat} (hk : k < 3) :
    ((s.pokeBytes base (decimalDigits b)).peek (base + k)).toNat =
      [b.toNat / 100, b.toNat / 10 % 10, b.toNat % 10][k] := by
  simp only [← map_toNat_decimalDigits, List.getElem_map]
  exact congrArg BitVec.toNat (peek_pokeBytes_add s base k (decimalDigits b) hk)

/-- V[r] of the registers loaded holds the byte r above the first (R135). -/
theorem reg_loadRegs_peekBytes (s t : State) (base : Nat) {x r : Reg} (h : r ≤ x) :
    (t.loadRegs 0 (s.peekBytes base (x.val + 1))).reg r = s.peek (base + r.val) := by
  have hr : r.val < (s.peekBytes base (x.val + 1)).length := by
    rw [length_peekBytes]
    exact Nat.lt_succ_of_le h
  rw [reg_loadRegs, dif_pos ⟨Nat.zero_le _, hr⟩]
  exact getElem_peekBytes s base _ _ hr

/-! ## Accesses out of range (R55, R56) -/

theorem readBytes_eq_none {base n : Nat} (h : base + n > 0xFFF) : s.readBytes base (n + 1) = none :=
  if_neg fun hin => by
    have hrange := (inRange_iff _ _).1 hin
    omega

theorem writeBytes_eq_none {base n : Nat} {bs : List Byte} (hlen : bs.length = n + 1) (h : base + n > 0xFFF) :
    s.writeBytes base bs = none :=
  if_neg fun hin => by
    have hrange := (inRange_iff _ _).1 hin
    omega

/-! ## What the instructions do -/

theorem exec_ldB_eq_next (x : Reg) (h : s.i.toNat + 2 ≤ 0xFFF) :
    exec (.ldB x) s = .next (s.advance.pokeBytes s.i.toNat (decimalDigits (s.reg x))) := by
  have hwrite := (writeBytes_eq_some s.advance _ s.i.toNat (decimalDigits (s.reg x))).2 ⟨.inr h, rfl⟩
  simp only [exec, execLdB, hwrite]

theorem exec_ldB_eq_raise (x : Reg) (h : s.i.toNat + 2 > 0xFFF) :
    exec (.ldB x) s = .next (s.raiseOutOfBounds (encode (.ldB x))) := by
  have hwrite := writeBytes_eq_none (s := s.advance) (bs := decimalDigits (s.reg x)) rfl h
  simp only [exec, execLdB, hwrite]

theorem exec_ldMemV_eq_raise (x : Reg) (h : s.i.toNat + x.val > 0xFFF) :
    exec (.ldMemV x) s = .next (s.raiseOutOfBounds (encode (.ldMemV x))) := by
  have hwrite := writeBytes_eq_none (s := s.advance) (length_firstRegs s x) h
  simp only [exec, execLdMemV, hwrite]

theorem exec_ldVMem_eq_next (x : Reg) (h : s.i.toNat + x.val ≤ 0xFFF) :
    exec (.ldVMem x) s = .next (s.advance.loadRegs 0 (s.peekBytes s.i.toNat (x.val + 1))) := by
  have hread := (readBytes_eq_some s s.i.toNat (x.val + 1) _).2 ⟨.inr (by omega), rfl⟩
  simp only [exec, execLdVMem, hread]

theorem exec_ldVMem_eq_raise (x : Reg) (h : s.i.toNat + x.val > 0xFFF) :
    exec (.ldVMem x) s = .next (s.raiseOutOfBounds (encode (.ldVMem x))) := by
  simp only [exec, execLdVMem, readBytes_eq_none h]

/-! ## The obligations -/

/-- Settles O40: I is the one place written beside PC, and the operands are read as numbers. -/
theorem addressRegisterLoads : Obligations.AddressRegisterLoads := fun nnn x s =>
  ⟨⟨_, rfl, toNat_addressOf nnn, rfl, unchanged_advance_setI s _⟩,
   ⟨_, rfl, by rw [BitVec.toNat_add, toNat_wordOf], rfl, unchanged_advance_setI s _⟩,
   encoded_tableRow (i := .ldI nnn) rfl, encoded_tableRow (i := .addI x) rfl⟩

/-- Settles O41: with its parameter off the digit is all of V[x]. -/
theorem glyphAddressOfADigit : Obligations.GlyphAddressOfADigit := fun x s hparam =>
  have hdigit : glyphDigit s.config (s.reg x) = s.reg x := if_neg (by simp [hparam])
  ⟨⟨_, rfl, by rw [hdigit, toNat_glyphAddress], rfl, unchanged_advance_setI s _⟩, encoded_tableRow (i := .ldF x) rfl⟩

/-- Settles O43: the three bytes stored are the digits in their order. -/
theorem decimalDigitsStored : Obligations.DecimalDigitsStored := by
  refine fun x s => ⟨fun h => ?_, fun h => raise_answers (exec_ldB_eq_raise x h), encoded_tableRow (i := .ldB x) rfl⟩
  have hdigit (k : Nat) (hk : k < 3) :=
    toNat_peek_pokeBytes_decimalDigits s.advance s.i.toNat (s.reg x) hk
  exact ⟨_, exec_ldB_eq_next x h, hdigit 0 (by decide), hdigit 1 (by decide), hdigit 2 (by decide),
    by rw [pokeBytes_frame]; rfl, (unchanged_setPc s _).trans (unchanged_pokeBytes s.advance _ _)⟩

/-- Settles O44: the bytes stored are the registers in their order. -/
theorem registersStored : Obligations.RegistersStored := by
  refine fun x s => ⟨fun h => ?_, fun h => raise_answers (exec_ldMemV_eq_raise x h),
    encoded_tableRow (i := .ldMemV x) rfl⟩
  have hframe := unchanged_pokeBytes s.advance s.i.toNat (s.firstRegs x)
  rw [length_firstRegs] at hframe
  exact ⟨_, execLdMemV_eq_next h, fun r hr => peek_pokeBytes_firstRegs s s.advance _ hr, by rw [pokeBytes_frame]; rfl,
    (unchanged_setPc s _).trans hframe⟩

/-- Settles O45: the registers loaded hold the bytes in their order. -/
theorem registersLoaded : Obligations.RegistersLoaded := by
  refine fun x s => ⟨fun h => ?_, fun h => raise_answers (exec_ldVMem_eq_raise x h),
    encoded_tableRow (i := .ldVMem x) rfl⟩
  exact ⟨_, exec_ldVMem_eq_next x h, fun r hr => reg_loadRegs_peekBytes s s.advance _ hr, by rw [loadRegs_frame]; rfl,
    (unchanged_setPc s _).trans (unchanged_loadRegs s.advance (length_peekBytes _ _ _))⟩

/-- Settles O46: each move is an advance of PC and one write. -/
theorem timerRegisterMoves : Obligations.TimerRegisterMoves := fun x s =>
  ⟨⟨_, rfl, reg_setReg_self _ x s.dt, rfl, unchanged_advance_setReg s x _⟩,
   ⟨_, rfl, rfl, rfl, (unchanged_setPc s _).trans (unchanged_setDt s.advance _)⟩,
   ⟨_, rfl, rfl, rfl, (unchanged_setPc s _).trans (unchanged_setSt s.advance _)⟩,
   encoded_tableRow (i := .ldVDt x) rfl, encoded_tableRow (i := .ldDtV x) rfl, encoded_tableRow (i := .ldStV x) rfl⟩

end Sys2Proof.Machine
end

section
/-! Display instructions: CLS, and the sprite draw as the picture of the sprite XORed into the display (R150 to R156). -/

namespace Sys2Proof.Machine

variable {s t : State}

/-! ## Frames -/

/-- Another display touches the places whose pixels it shows differently. -/
theorem unchanged_setDisplay {fb : List (List Bool)} {places : Set Field}
    (h : ∀ px py, .pixel px py ∉ places → Display.get fb px py = s.pixel px py) :
    Unchanged s { s with fb := fb } places := by
  intro f hf
  cases f with
  | pixel px py => exact h px py hf
  | _ => rfl

/-! ## The sprite in memory (R152) -/

/-- The sprite bytes read from memory are the picture that the sprite at `base` has on the display. -/
theorem sheetBit_peekBytes (s : State) (base n ox oy px py : Nat) :
    sheetBit (s.peekBytes base n) ox oy px py = spriteCovers s base ox oy n px py := by
  unfold sheetBit spriteCovers
  rw [length_peekBytes]
  by_cases hin : ox ≤ px ∧ px < ox + 8 ∧ oy ≤ py ∧ py < oy + n
  · have hrow : py - oy < (s.peekBytes base n).length := by
      rw [length_peekBytes]
      omega
    rw [List.getD_eq_getElem _ _ hrow, getElem_peekBytes]
  · rw [decide_eq_false hin, Bool.false_and, Bool.false_and]

/-- The picture of a sprite depends on its own bytes alone. -/
theorem spriteCovers_congr {base n : Nat} (h : ∀ k, k < n → t.peek (base + k) = s.peek (base + k))
    (ox oy px py : Nat) : spriteCovers t base ox oy n px py = spriteCovers s base ox oy n px py := by
  unfold spriteCovers
  by_cases hin : ox ≤ px ∧ px < ox + 8 ∧ oy ≤ py ∧ py < oy + n
  · rw [h (py - oy) (by omega)]
  · rw [decide_eq_false hin, Bool.false_and, Bool.false_and]

/-! ## The draw (R151 to R154) -/

/-- DRW Vx,Vy,n has a 1 bit at the place: the sprite at I, drawn at (V[x], V[y]). -/
def State.drwCovers (s : State) (x y : Reg) (n : Nibble) (px py : Nat) : Bool :=
  spriteCovers s s.i.toNat (s.reg x).toNat (s.reg y).toNat n.toNat px py

/-- What DRW Vx,Vy,n draws, with every sprite byte inside memory. -/
def State.drwDraw (s : State) (x y : Reg) (n : Nibble) : DrawState :=
  drawRows s.config (s.reg x).toNat (s.reg y).toNat (s.peekBytes s.i.toNat n.toNat) ⟨s.fb, false⟩

section Draw

variable (x y : Reg) (n : Nibble) (hs : Display.shaped s.config.displayW s.config.displayH s.fb = true)
include hs

theorem shaped_drwDraw : Display.shaped s.config.displayW s.config.displayH (s.drwDraw x y n).fb = true :=
  (drawRows_spec _ _ _ _ _ hs).1

theorem get_drwDraw (px py : Nat) :
    Display.get (s.drwDraw x y n).fb px py =
      xor (s.pixel px py) (inDisplay s.config px py && s.drwCovers x y n px py) := by
  rw [State.drwCovers, ← sheetBit_peekBytes]
  exact (drawRows_spec _ _ _ _ _ hs).2.1 px py

theorem get_drwDraw_onDisplay {px py : Nat} (hon : onDisplay s px py) :
    Display.get (s.drwDraw x y n).fb px py = xor (s.pixel px py) (s.drwCovers x y n px py) := by
  rw [get_drwDraw x y n hs, inDisplay, decide_eq_true hon, Bool.true_and]

/-- A pixel outside the display, or where the sprite has no 1 bit, is not drawn. -/
theorem get_drwDraw_of_not_covered {px py : Nat} (h : ¬(onDisplay s px py ∧ s.drwCovers x y n px py = true)) :
    Display.get (s.drwDraw x y n).fb px py = s.pixel px py := by
  have hbit : (inDisplay s.config px py && s.drwCovers x y n px py) = false := by
    simpa [inDisplay] using h
  rw [get_drwDraw x y n hs, hbit, Bool.xor_false]

theorem collided_drwDraw :
    (s.drwDraw x y n).collided = true ↔
      ∃ px py, onDisplay s px py ∧ s.drwCovers x y n px py = true ∧ s.pixel px py = true := by
  obtain ⟨-, -, hcollided⟩ := drawRows_spec s.config (s.reg x).toNat (s.reg y).toNat
    (s.peekBytes s.i.toNat n.toNat) ⟨s.fb, false⟩ hs
  simp only [sheetBit_peekBytes, inDisplay, decide_eq_true_eq, Bool.false_eq_true, false_or] at hcollided
  exact hcollided

end Draw

/-! ## What DRW does -/

/-- The reset of VF at the start is overwritten by the collision at the end (R154). -/
theorem setFlag_setDisplay_setFlag (s : State) (f g : Bool) (fb : List (List Bool)) :
    State.setFlag { s.setFlag f with fb := fb } g = { s.setFlag g with fb := fb } :=
  congrArg (fun v => { s with v := v, fb := fb }) (Vector.set_set _ _)

/-- DRW with every sprite byte inside memory, or none to read. -/
theorem exec_drw_eq_next (x y : Reg) {n : Nibble} (h : n.toNat = 0 ∨ s.i.toNat + n.toNat - 1 ≤ 0xFFF) :
    exec (.drw x y n) s =
      .next { s.advance.setFlag (s.drwDraw x y n).collided with fb := (s.drwDraw x y n).fb } := by
  have hread := (readBytes_eq_some s s.i.toNat n.toNat _).2 ⟨h, rfl⟩
  simp only [exec, execDrw, hread, setFlag_setDisplay_setFlag]
  rfl

theorem exec_drw_eq_raise (x y : Reg) {n : Nibble} (hpos : n.toNat > 0) (h : s.i.toNat + n.toNat - 1 > 0xFFF) :
    exec (.drw x y n) s = .next (s.raiseOutOfBounds (encode (.drw x y n))) := by
  obtain ⟨m, hm⟩ := Nat.exists_eq_add_one.2 hpos
  have hread : s.readBytes s.i.toNat n.toNat = none := hm ▸ readBytes_eq_none (by omega)
  simp only [exec, execDrw, hread]

/-- DRW keeps the size of the display. -/
theorem shaped_of_exec_drw {x y : Reg} {n : Nibble} (hs : Display.shaped s.config.displayW s.config.displayH s.fb = true)
    (hin : n.toNat = 0 ∨ s.i.toNat + n.toNat - 1 ≤ 0xFFF) (h : exec (.drw x y n) s = .next t) :
    Display.shaped t.config.displayW t.config.displayH t.fb = true := by
  cases (exec_drw_eq_next x y hin).symm.trans h
  exact shaped_drwDraw x y n hs

/-! ## The obligations -/

/-- Settles O51: the display is the blank one, and PC is the one other place written. -/
theorem clearScreen : Obligations.ClearScreen := fun s =>
  ⟨⟨_, rfl, fun px py _ => get_blank _ _ px py, rfl,
    (unchanged_setPc s _).trans (unchanged_setDisplay (s := s.advance) fun px py hout => absurd ⟨px, py, rfl⟩ hout)⟩,
   encoded_tableRow (i := .cls) rfl⟩

/-- Settles O52: the drawn display is the old one XORed with the picture, and VF is the collision of the draw. -/
theorem drawXorsTheSprite : Obligations.DrawXorsTheSprite := by
  refine fun x y n s hs => ⟨fun hin => ?_, fun ⟨hpos, hout⟩ => raise_answers (exec_drw_eq_raise x y hpos hout),
    encoded_tableRow (i := .drw x y n) rfl⟩
  have hcollided := collided_drwDraw x y n hs
  have hflag := reg_setReg_self s.advance 15 (flagByte (s.drwDraw x y n).collided)
  refine ⟨_, exec_drw_eq_next x y hin, fun px py hon => get_drwDraw_onDisplay x y n hs hon, fun hhit => ?_,
    fun hmiss => ?_, rfl, ?_⟩
  · exact hflag.trans (congrArg flagByte (hcollided.2 hhit))
  · exact hflag.trans (congrArg flagByte (Bool.eq_false_iff.2 (mt hcollided.1 hmiss)))
  · exact (unchanged_advance_setReg s 15 _).trans (unchanged_setDisplay fun px py hout =>
      get_drwDraw_of_not_covered x y n hs fun ⟨hon, hbit⟩ => hout ⟨px, py, hon, hbit, rfl⟩)

/-- Settles O53, by O52 twice: the second draw finds the same picture, and a pixel XORed twice with one bit is the pixel
before; where the first draw lit the pixels, the second finds them lit. -/
theorem doubleDrawRestores : Obligations.DoubleDrawRestores := by
  intro x y n s t between hs hin hdraw hfb hi hconfig hx hy hbytes covers
  obtain ⟨t', hdraw', hfirst, -, hclear, -, hframe⟩ := (drawXorsTheSprite x y n s hs).1 hin
  cases hdraw'.symm.trans hdraw
  have hshaped : Display.shaped between.config.displayW between.config.displayH between.fb = true := by
    rw [hconfig, hfb]
    exact shaped_of_exec_drw hs hin hdraw
  have hbase : between.i = s.i := hi.trans (hframe .i (by simp [spritePlaces]))
  have hparams : between.config = s.config := hconfig.trans (hframe .config (by simp [spritePlaces]))
  obtain ⟨u, hu, hsecond, hcollide, -⟩ := (drawXorsTheSprite x y n between hshaped).1 (hbase ▸ hin)
  have hpixel {px py : Nat} (hon : onDisplay s px py) : between.pixel px py = xor (s.pixel px py) (covers px py) :=
    (congrArg (Display.get · px py) hfb).trans (hfirst px py hon)
  simp only [onDisplay, hbase, hparams, hx, hy, spriteCovers_congr hbytes] at hsecond hcollide
  refine ⟨u, hu, fun px py hon => ?_, fun ⟨px, py, hon, hbit⟩ hunlit => ⟨hclear ?_, hcollide ⟨px, py, hon, hbit, ?_⟩⟩⟩
  · rw [hsecond px py hon, hpixel hon, Bool.xor_assoc, Bool.xor_self, Bool.xor_false]
  · rintro ⟨qx, qy, hon', hbit', hlit⟩
    exact absurd hlit (Bool.eq_false_iff.1 (hunlit qx qy hon' hbit'))
  · rw [hpixel hon, hunlit px py hon hbit, hbit]
    rfl

end Sys2Proof.Machine
end

section
/-! Faults: a Step in Running takes a fault exactly where the fault table gives a record, and then nothing else changes (R160
to R167). -/

namespace Sys2Proof.Machine

variable {s t : State}

/-! ## The Step and the fault table (R160 to R167) -/

/-- The word that a fault of the next Step records: none was fetched where the fetch itself faults (R55, R164). -/
def State.recordedWord (s : State) : Word := if s.pc.toNat > 0xFFE then 0 else s.fetchWord

/-- `StepAnswers s r o`: the outcome `o` of a Step from `s` fits the record `r` that the fault table gives it. -/
inductive StepAnswers (s : State) : Option FaultRecord → Host.Outcome State Fault Refusal → Prop
  | faults (cause : Cause) (info : Word) :
      StepAnswers s (some ⟨cause, s.pc, s.recordedWord, info⟩) (.next (s.raise cause s.recordedWord info))
  | next (t : State) (hmode : t.mode ≠ .faulted) (hfault : t.fault = s.fault) : StepAnswers s none (.next t)
  | stops (hsp : s.sp.toNat > 16) : StepAnswers s none (.fault .stackSlotAbsent)

namespace StepAnswers

variable {o : Host.Outcome State Fault Refusal}

/-- The form of every row of the table: a condition under which the instruction takes its fault, and otherwise none. -/
theorem of_ite {p : Prop} [Decidable p] {cause : Cause} {info : Word}
    (hraise : p → o = .next (s.raise cause s.recordedWord info)) (hnone : ¬p → StepAnswers s none o) :
    StepAnswers s (if p then some ⟨cause, s.pc, s.recordedWord, info⟩ else none) o := by
  split
  next hp => exact hraise hp ▸ .faults cause info
  next hp => exact hnone hp

/-- An instruction that keeps the mode Running has taken no fault, and keeps the record. -/
theorem of_exec {i : Instr} (hrun : s.mode = .running) (h : exec i s = .next t) (hmode : t.mode = s.mode) :
    StepAnswers s none (exec i s) := by
  have hlive : t.mode ≠ .faulted := by simp [hmode, hrun]
  rw [h]
  cases execWrites_of_exec h with
  | raise => exact absurd rfl hlive
  | _ => exact .next _ hlive rfl

end StepAnswers

/-! ## Operations that leave MODE alone -/

@[simp] theorem mode_skipIf (s : State) (c : Bool) : (s.skipIf c).mode = s.mode := by rw [skipIf_eq]

@[simp] theorem mode_loadRegs (s : State) (k : Nat) (bs : List Byte) : (s.loadRegs k bs).mode = s.mode := by
  rw [loadRegs_frame]

@[simp] theorem mode_takeRandom (s : State) : s.takeRandom.2.mode = s.mode := by
  obtain ⟨b, rest, -, htake⟩ | ⟨-, htake⟩ := takeRandom_cases s <;> rw [htake]

/-! ## Instructions that take a fault or stop -/

theorem exec_sys_eq_raise (nnn : Addr) (hparam : s.config.sysFaults = true) :
    exec (.sys nnn) s = .next (s.raise .decodeFailure (encode (.sys nnn)) 0) := if_pos hparam

theorem exec_call_eq_fault (nnn : Addr) (h : s.sp.toNat > 16) : exec (.call nnn) s = .fault .stackSlotAbsent := by
  have hpush : s.advance.push s.advance.pc = none := dif_neg (by rw [advance_sp]; omega)
  have hfull : s.sp ≠ 16 := by bv_omega
  simp only [exec, execCall, if_neg hfull, hpush]

theorem exec_ret_eq_fault (h : s.sp.toNat > 16) : exec .ret s = .fault .stackSlotAbsent := by
  have hpop : s.advance.pop = none := dif_neg (by rw [advance_sp]; bv_omega)
  have hused : s.sp ≠ 0 := by bv_omega
  simp only [exec, execRet, if_neg hused, hpop]

/-! ## An instruction's own check (R161 to R165) -/

/-- Every row of the table is the check that the instruction makes, and the instructions of no row take no fault. -/
theorem stepAnswers_of_decode {i : Instr} (hrun : s.mode = .running) (hfetch : ¬ s.pc.toNat > 0xFFE)
    (hdecode : decode s.fetchWord = .ok i) : StepAnswers s (specFault s) (exec i s) := by
  have hrecord : s.recordedWord = s.fetchWord := if_neg hfetch
  have hword : encode i = s.recordedWord := (encode_of_decode hdecode).trans hrecord.symm
  have hbytes : s.peek s.pc.toNat ++ s.peek (s.pc.toNat + 1) = s.recordedWord := hrecord.symm
  rw [← hrecord] at hdecode
  simp only [specFault, if_neg hfetch, hbytes, hdecode]
  cases i with
  | sys nnn =>
    exact .of_ite (fun h => hword ▸ exec_sys_eq_raise nnn h) fun h =>
      .of_exec hrun (exec_sys_eq_next nnn (Bool.eq_false_iff.2 h)) rfl
  | call nnn =>
    refine .of_ite (fun h => hword ▸ exec_call_eq_raise nnn (congrArg BitVec.toNat h)) fun h => ?_
    by_cases hsp : s.sp.toNat > 16
    · exact exec_call_eq_fault nnn hsp ▸ .stops hsp
    · exact .of_exec hrun (exec_call_eq_next nnn (by bv_omega)) rfl
  | ret =>
    refine .of_ite (fun h => hword ▸ exec_ret_eq_raise (congrArg BitVec.toNat h)) fun h => ?_
    by_cases hsp : s.sp.toNat > 16
    · exact exec_ret_eq_fault hsp ▸ .stops hsp
    · exact .of_exec hrun (exec_ret_eq_next (by bv_omega) (by omega)) rfl
  | drw x y n =>
    exact .of_ite (fun ⟨hpos, h⟩ => hword ▸ exec_drw_eq_raise x y hpos h) fun h =>
      .of_exec hrun (exec_drw_eq_next x y (by omega)) rfl
  | ldB x =>
    exact .of_ite (fun h => hword ▸ exec_ldB_eq_raise x h) fun h =>
      .of_exec hrun (exec_ldB_eq_next x (by omega)) (mode_pokeBytes _ _ _)
  | ldMemV x =>
    exact .of_ite (fun h => hword ▸ exec_ldMemV_eq_raise x h) fun h =>
      .of_exec hrun (execLdMemV_eq_next (by omega)) (mode_pokeBytes _ _ _)
  | ldVMem x =>
    exact .of_ite (fun h => hword ▸ exec_ldVMem_eq_raise x h) fun h =>
      .of_exec hrun (exec_ldVMem_eq_next x (by omega)) (mode_loadRegs _ _ _)
  | skp x =>
    exact .of_ite (fun h => hword ▸ exec_skp_eq_raise h) fun h =>
      .of_exec hrun (exec_skp_eq_next (k := ⟨(s.reg x).toNat, by omega⟩) rfl) (mode_skipIf _ _)
  | sknp x =>
    exact .of_ite (fun h => hword ▸ exec_sknp_eq_raise h) fun h =>
      .of_exec hrun (exec_sknp_eq_next (k := ⟨(s.reg x).toNat, by omega⟩) rfl) (mode_skipIf _ _)
  | seImm | sneImm | seReg | sneReg => exact .of_exec hrun rfl (mode_skipIf _ _)
  | rnd => exact .of_exec hrun rfl (mode_takeRandom _)
  | ldVK => exact .next _ nofun rfl
  | cls | jp | jpV0 | ldImm | addImm | ldReg | orReg | andReg | xorReg | addReg | sub | shr | subn | shl | ldVDt | ldI
  | addI | ldF | ldDtV | ldStV => exact .of_exec hrun rfl rfl

/-! ## A word that does not decode (R161) -/

theorem decodeBytes_pair_eq_error {hi lo : Byte} {e : DecodeError} :
    decodeBytes [hi, lo] = .error e ↔ decode (wordOfBytes hi lo) = .error e := by
  rw [decodeBytes]
  cases decode (wordOfBytes hi lo) <;> simp [Except.map]

theorem step_eq_raiseDecodeFailure {e : DecodeError} (hrun : s.mode = .running) (hfetch : ¬ s.pc.toNat > 0xFFE)
    (hdecode : decode s.fetchWord = .error e) : step s = .next s.raiseDecodeFailure := by
  have hin : ¬ s.fetchOutOfRange = true := mt (fetchOutOfRange_iff s).1 hfetch
  simp only [step, hrun, if_neg hin, hdecode]

theorem specFault_of_noMatch {e : DecodeError} (hfetch : ¬ s.pc.toNat > 0xFFE)
    (hdecode : decode s.fetchWord = .error e) : specFault s = some ⟨.decodeFailure, s.pc, s.fetchWord, 0⟩ := by
  have hbytes : s.peek s.pc.toNat ++ s.peek (s.pc.toNat + 1) = s.fetchWord := rfl
  simp only [specFault, if_neg hfetch, hbytes, hdecode]

/-! ## Every Step -/

/-- A Step in Running answers as the fault table says: the fetch range first, then the decoder, then the instruction. -/
theorem stepAnswers_specFault (hrun : s.mode = .running) : StepAnswers s (specFault s) (step s) := by
  by_cases hfetch : s.pc.toNat > 0xFFE
  · have hword : s.recordedWord = 0 := if_pos hfetch
    rw [step_eq_raiseFetch hrun hfetch, specFault, if_pos hfetch, State.raiseFetch, ← hword]
    exact .faults _ _
  · have hword : s.recordedWord = s.fetchWord := if_neg hfetch
    cases hdecode : decode s.fetchWord with
    | ok i =>
      rw [step_eq_exec hrun (by omega) hdecode]
      exact stepAnswers_of_decode hrun hfetch hdecode
    | error e =>
      rw [step_eq_raiseDecodeFailure hrun hfetch hdecode, specFault_of_noMatch hfetch hdecode,
        State.raiseDecodeFailure, ← hword]
      exact .faults _ _

/-- A key-wait poll takes no fault. -/
theorem mode_keyWaitPoll_ne_faulted (hwait : s.mode = .awaitingKey) : s.keyWaitPoll.mode ≠ .faulted := by
  intro hmode
  obtain ⟨-, hrun⟩ := keyWaitPoll_ends hwait (by simp [hmode])
  simp [hmode] at hrun

/-! ## The obligations -/

/-- Settles O10, by the three ways a Step can answer; with SP at most 16 it does not stop. -/
theorem faultsExactlyAsTheTableSays : Obligations.FaultsExactlyAsTheTableSays := by
  intro s hrun hsp
  have hanswers := stepAnswers_specFault hrun
  generalize specFault s = r, step s = o at hanswers ⊢
  cases hanswers with
  | faults cause info => exact ⟨fun r hr => by cases hr; rfl, nofun⟩
  | next t hmode hfault => exact ⟨nofun, fun _ => ⟨t, rfl, hmode, hfault⟩⟩
  | stops hstop => omega

/-- Settles O11: a Step that enters Faulted is in Running, and of its three answers only the fault is in Faulted. -/
theorem faultsArePrecise : Obligations.FaultsArePrecise := by
  intro s t hold hstep hmode
  cases hrun : s.mode with
  | faulted => exact absurd hrun hold
  | awaitingKey =>
    cases (step_eq_keyWaitPoll hrun).symm.trans hstep
    exact absurd hmode (mode_keyWaitPoll_ne_faulted hrun)
  | running =>
    have hanswers := stepAnswers_specFault hrun
    rw [hstep] at hanswers
    generalize specFault s = r at hanswers ⊢
    cases hanswers with
    | faults cause info => exact ⟨rfl, rfl, rfl, rfl, rfl⟩
    | next _ hlive _ => exact absurd hmode hlive

/-- Settles O8: the decoder refuses the word of the two bytes, and the Step takes the fault with that word. -/
theorem illegalWordFaults : Obligations.IllegalWordFaults := fun _ _ hrun hfetch hbytes =>
  raise_answers (step_eq_raiseDecodeFailure hrun (by omega) (decodeBytes_pair_eq_error.1 hbytes))

end Sys2Proof.Machine
end

section
/-! The host's commands: Load, Tick and SetKey, and what each command does in Faulted (R168, R174, R182, R194, R195). -/

namespace Sys2Proof.Machine

variable {s t : State}

/-! ## A Step in Faulted (R168) -/

theorem step_eq_self_of_faulted (hfaulted : s.mode = .faulted) : step s = .next s := by
  simp only [step, hfaulted]

/-- The Step command supplies its random byte, which nothing then takes (R168; log 6). -/
theorem command_step_of_faulted (hfaulted : s.mode = .faulted) (random : Byte) :
    s.command (.step random) = .next { s with randomInput := [random] } := step_eq_self_of_faulted hfaulted

theorem unchanged_setRandomInput (s : State) (input : List Byte) :
    Unchanged s { s with randomInput := input } {.randomInput} := by
  intro f hf
  cases f with
  | randomInput => exact absurd rfl hf
  | _ => rfl

/-! ## Load (R194, R195) -/

theorem load_of_fits {bytes : List Byte} (h : bytes.length ≤ 0xE00) :
    s.load bytes = { s.pokeBytes 0x200 bytes with pc := 0x200 } := if_pos h

theorem load_of_oversize {bytes : List Byte} (h : bytes.length > 0xE00) :
    s.load bytes = s.raiseRomTooLarge bytes.length := if_neg (by omega)

theorem fault_load_of_fits {bytes : List Byte} (h : bytes.length ≤ 0xE00) : (s.load bytes).fault = s.fault := by
  rw [load_of_fits h, pokeBytes_frame]

theorem unchanged_setFault (s : State) (mode : Mode) (record : FaultRecord) :
    Unchanged s { s with mode := mode, fault := record } {.mode, .fault} := by
  intro f hf
  cases f with
  | mode | fault => simp at hf
  | _ => rfl

/-! ## Tick (R174) -/

/-- The floor at 0 is that of the subtraction of numbers. -/
theorem toNat_countDown (b : Byte) : (countDown b).toNat = b.toNat - 1 := by
  unfold countDown
  split
  next hzero => rw [hzero]; rfl
  next hpos => bv_omega

/-! ## SetKey (R182) -/

/-- The one law of a SetKey (R182). -/
@[simp] theorem key_setKey (s : State) (k k' : Reg) (b : Bool) :
    (s.setKey k b).key k' = if k' = k then b else s.key k' := by
  simp only [State.key, setKey_keys, Fin.getElem_fin, Vector.getElem_set, Fin.ext_iff, eq_comm (a := k.val)]

theorem unchanged_setKey (s : State) (k : Reg) (b : Bool) : Unchanged s (s.setKey k b) {.key k} := by
  intro f hf
  cases f with
  | key k' =>
    have hne : k' ≠ k := fun he => hf (congrArg Field.key he)
    exact (key_setKey s k k' b).trans (if_neg hne)
  | _ => rfl

/-- A poll finds a key where one is pressed (R143). -/
theorem mode_keyWaitPoll_of_key {k : Reg} (hk : s.key k = true) : s.keyWaitPoll.mode = .running := by
  cases hfound : s.lowestKey with
  | none => simp [(lowestKey_eq_none s).1 hfound k] at hk
  | some j =>
    obtain ⟨hj, hlow⟩ := (lowestKey_eq_some s j).1 hfound
    rw [keyWaitPoll_eq_setReg hj hlow]

/-! ## No command but Reset leaves Faulted (R168) -/

theorem mode_of_command_faulted {c : Command} (hfaulted : s.mode = .faulted) (hc : c ≠ .reset)
    (h : s.command c = .next t) : t.mode = .faulted := by
  cases c with
  | reset => exact absurd rfl hc
  | load bytes =>
    cases h
    by_cases hfits : bytes.length ≤ 0xE00
    · exact (mode_load_of_fits hfits).trans hfaulted
    · exact mode_load_of_oversize (by omega)
  | step random =>
    cases (command_step_of_faulted hfaulted random).symm.trans h
    exact hfaulted
  | tick | setKey =>
    cases h
    exact hfaulted

theorem fault_of_command_faulted {c : Command} (hfaulted : s.mode = .faulted) (hc : c ≠ .reset)
    (hfits : ∀ bytes, c = .load bytes → bytes.length ≤ 0xE00) (h : s.command c = .next t) : t.fault = s.fault := by
  cases c with
  | reset => exact absurd rfl hc
  | load bytes =>
    cases h
    exact fault_load_of_fits (hfits bytes rfl)
  | step random =>
    cases (command_step_of_faulted hfaulted random).symm.trans h
    rfl
  | tick | setKey =>
    cases h
    rfl

/-! ## The obligations -/

/-- Settles O12: a Step has no effect, each other command acts as its own law says, and over all of them only Reset writes
the mode and only an oversize Load the record. -/
theorem onlyResetLeavesFaulted : Obligations.OnlyResetLeavesFaulted := by
  intro s hfaulted
  refine ⟨step_eq_self_of_faulted hfaulted, fun random => ?_, ?_, fun k b => ?_, fun bytes hfits => ?_,
    fun c t hc h => mode_of_command_faulted hfaulted hc h, ⟨_, rfl, rfl, rfl⟩,
    fun c t hc hfits h => fault_of_command_faulted hfaulted hc hfits h, fun bytes hbig => ?_⟩
  · exact ⟨_, command_step_of_faulted hfaulted random, unchanged_setRandomInput s [random]⟩
  · exact ⟨_, rfl, toNat_countDown s.dt, toNat_countDown s.st⟩
  · exact ⟨_, rfl, by rw [key_setKey, if_pos rfl]⟩
  · refine ⟨_, rfl, by rw [load_of_fits hfits], fun j hj => ?_⟩
    rw [load_of_fits hfits]
    exact peek_pokeBytes_add s 0x200 j bytes hj
  · exact ⟨_, rfl, by rw [load_of_oversize hbig]; rfl⟩

/-- Settles O22: the length recorded is saturated, so it fits in the field. -/
theorem oversizeLoadFaults : Obligations.OversizeLoadFaults := by
  intro s bytes hbig
  have hinfo : (BitVec.ofNat 16 (min bytes.length 0xFFFF)).toNat = min bytes.length 0xFFFF :=
    Nat.mod_eq_of_lt (by omega)
  exact ⟨_, congrArg Host.Outcome.next (load_of_oversize hbig), rfl, rfl, rfl, rfl, rfl, hinfo, unchanged_setFault s _ _⟩

/-- Settles O23: Tick is one write of each timer. -/
theorem tickCountsDownToZero : Obligations.TickCountsDownToZero := fun s =>
  ⟨_, rfl, toNat_countDown s.dt, toNat_countDown s.st,
    (unchanged_setDt s _).trans (unchanged_setSt { s with dt := countDown s.dt } _)⟩

/-- Settles O24, by what SKP and SKNP do with the key that was set, and by the poll that finds it. -/
theorem setKeyChangesOnlyThatKey : Obligations.SetKeyChangesOnlyThatKey := by
  intro s k b
  have hkey : (s.setKey k b).key k = b := by rw [key_setKey, if_pos rfl]
  refine ⟨_, rfl, hkey, unchanged_setKey s k b, fun x hx => ?_, fun hwait hb => ?_⟩
  · obtain ⟨hskips, -⟩ := keySkips x (s.setKey k b)
    obtain ⟨⟨t, ht, htpc, -⟩, ⟨u, hu, hupc, -⟩⟩ := hskips k hx
    rw [hkey] at htpc hupc
    exact ⟨⟨t, ht, htpc⟩, ⟨u, hu, hupc⟩⟩
  · exact ⟨_, step_eq_keyWaitPoll hwait, mode_keyWaitPoll_of_key (hkey.trans hb)⟩

end Sys2Proof.Machine
end

section
/-! Reset from every state, and the Load that fits (R190, R194). -/

namespace Sys2Proof.Machine

/-! ## Load of at most 0xE00 bytes (R194) -/

/-- Load is a store of the program from 0x200 and a write of PC, and touches the places of the two. -/
theorem unchanged_load_of_fits (s : State) {bytes : List Byte} (hfits : bytes.length ≤ 0xE00) :
    Unchanged s (s.load bytes) ({.pc} ∪ memPlaces 0x200 bytes.length) := by
  rw [load_of_fits hfits, Set.union_comm]
  exact (unchanged_pokeBytes s 0x200 bytes).trans (unchanged_setPc _ _)

theorem peek_load_of_fits (s : State) {bytes : List Byte} (hfits : bytes.length ≤ 0xE00) {j : Nat}
    (hj : j < bytes.length) : (s.load bytes).peek (0x200 + j) = bytes[j] := by
  rw [load_of_fits hfits]
  exact peek_pokeBytes_add s 0x200 j bytes hj

/-! ## The obligations -/

/-- Settles O20: the state answered differs from the state after reset (R43) in the host's inputs only, and those are the
old ones. -/
theorem resetCommandResetsEverything : Obligations.ResetCommandResetsEverything := by
  intro s
  obtain ⟨hv, hi, hpc, hsp, hstack, hdt, hst, hmem, hpixel, hmode, hwaitReg, hfault⟩ := resetStateHoldsTheTable s.config
  exact ⟨s.resetAgain, rfl, hv, hi, hpc, hsp, hstack, hdt, hst, hmem, hpixel, hmode, hwaitReg, hfault, fun _ => rfl, rfl⟩

/-- Settles O21, by the laws of a Load that fits. -/
theorem loadCopiesTheProgram : Obligations.LoadCopiesTheProgram := fun s _ hfits =>
  ⟨_, rfl, fun _ hj => peek_load_of_fits s hfits hj, by rw [load_of_fits hfits], unchanged_load_of_fits s hfits⟩

end Sys2Proof.Machine
end

section
/-! The model's own choices and the optional parameters: SYS_FAULTS and FONT_DIGIT_MASK (D2, D16; log 5), stack slots that
do not exist (log 2) and RND with no byte supplied (log 6). -/

namespace Sys2Proof.Machine

variable {s : State}

/-! ## RND with an empty input (log 6) -/

theorem unchanged_setRandomTaken (s : State) (n : Nat) : Unchanged s { s with randomTaken := n } {.randomTaken} := by
  intro f hf
  cases f with
  | randomTaken => exact absurd rfl hf
  | _ => rfl

theorem takeRandom_eq_of_nil (h : s.randomInput = []) :
    s.takeRandom = (Config.randomByte s.randomTaken, { s with randomTaken := s.randomTaken + 1 }) := by
  simp [State.takeRandom, h]

/-- RND writes V[x] with the masked free value and counts the draw. -/
theorem exec_rnd_eq_next_of_nil (x : Reg) (kk : Byte) (h : s.randomInput = []) :
    exec (.rnd x kk) s =
      .next { s.advance.setReg x (Config.randomByte s.randomTaken &&& kk) with randomTaken := s.randomTaken + 1 } := by
  simp only [exec, execRnd, takeRandom_eq_of_nil (s := s.advance) h]
  rfl

/-! ## The glyph digit under FONT_DIGIT_MASK (D16) -/

/-- The low four bits of a byte are its residue mod 16. -/
theorem toNat_glyphDigit_of_mask {c : Config} (hparam : c.fontDigitMask = true) (b : Byte) :
    (glyphDigit c b).toNat = b.toNat % 16 := by
  have hdigit : glyphDigit c b = b &&& 0x0F := if_pos hparam
  rw [hdigit, BitVec.toNat_and]
  exact Nat.and_two_pow_sub_one_eq_mod b.toNat 4

/-! ## The obligations -/

/-- Settles O26: the fault raised records the word of the SYS, which is 0nnn. -/
theorem sysFaultsUnderItsParameter : Obligations.SysFaultsUnderItsParameter := fun nnn _ hparam =>
  raise_answers (exec_sys_eq_raise nnn hparam)

/-- Settles O30: the push and the pop find no slot. -/
theorem noStackBeyondSixteenSlots : Obligations.NoStackBeyondSixteenSlots := fun nnn _ hsp =>
  ⟨exec_call_eq_fault nnn hsp, exec_ret_eq_fault hsp⟩

/-- Settles O39: the masked free value is the one register write, and the input stays empty. -/
theorem rndWithoutASuppliedByte : Obligations.RndWithoutASuppliedByte := fun x kk s h =>
  ⟨_, exec_rnd_eq_next_of_nil x kk h, reg_setReg_self s.advance x _, rfl, rfl,
    (unchanged_setPc s _).trans ((unchanged_setReg s.advance x _).trans (unchanged_setRandomTaken _ _))⟩

/-- Settles O42: with its parameter on the digit is V[x] mod 16. -/
theorem glyphAddressUnderItsParameter : Obligations.GlyphAddressUnderItsParameter := fun x s hparam =>
  ⟨_, rfl, by rw [toNat_glyphAddress, toNat_glyphDigit_of_mask hparam], rfl, unchanged_advance_setI s _⟩

end Sys2Proof.Machine
end
